-- ==== Sys2Proof/Word.lean ====
section
/-! DEFINITION. The word types of SDES-CORE (00_scope.md R7, R8, R10). A vector `v : Bits n` of the spec is a
`BitVec n`; its element `v⟨i⟩`, counted from the most significant end, is `v.getMsbD i`, and the word bit
`w[i]`, counted from the least significant end, is `w.getLsbD i` (R10, R11; log entry 16). -/

namespace Sys2Proof

/-- A vector of `n` binary elements, index 0 most significant (R10). -/
abbrev Bits (n : Nat) := BitVec n

/-- A half block, an S-box input, a P4 value (R7). -/
abbrev Nibble := Bits 4

/-- A block, a subkey, DOUT, STATUS (R7, R8). -/
abbrev Byte := Bits 8

/-- The session key (R7). -/
abbrev Key := Bits 10

/-- A command word, the data bus (R8). -/
abbrev Word := Bits 16

end Sys2Proof
end

