-- ==== Sys2Proof/Syntax.lean ====
section
/-! DEFINITION. The commands of SDES-CORE, one constructor per row of spec/opcode_table.json (30_encoding.md R66).
Each operand field has exactly the width its format gives it (R61 to R64), so no term of `Instr` is ill-formed. -/

namespace Sys2Proof

/-- A command with its operand. -/
inductive Instr where
  /-- LDKEY, format FK: load the session key (R112). -/
  | ldkey (k : Key)
  /-- ENC, format FB: encrypt one byte (R174). -/
  | enc (b : Byte)
  /-- DEC, format FB: decrypt one byte (R175). -/
  | dec (b : Byte)
  /-- IP, format FB: the initial permutation (R90). -/
  | ip (b : Byte)
  /-- IPINV, format FB: the inverse initial permutation (R91). -/
  | ipinv (b : Byte)
  /-- EP, format FN: expand a 4-bit half (R92). -/
  | ep (n : Nibble)
  /-- P4, format FN: the permutation after the S-boxes (R93). -/
  | p4 (n : Nibble)
  /-- S0, format FN: look up S-box 0 (R135). -/
  | s0 (n : Nibble)
  /-- S1, format FN: look up S-box 1 (R136). -/
  | s1 (n : Nibble)
  /-- SK1, format FZ: read subkey K1 (R113). -/
  | sk1
  /-- SK2, format FZ: read subkey K2 (R114). -/
  | sk2
  /-- FK1, format FB: one round with K1 (R152). -/
  | fk1 (b : Byte)
  /-- FK2, format FB: one round with K2 (R153). -/
  | fk2 (b : Byte)
deriving DecidableEq, Repr

end Sys2Proof
end

