-- ==== Sys2Proof/WellFormed.lean ====
section
/-! DEFINITION. The checks on an operand as a host program writes it (30_encoding.md R70): "An operand out of range is
an assembly error, not a command". A decoded `Instr` needs no check (its fields have the encoding's widths); the checks
on the configuration (R88) stand in Config.lean, whose types rest on them. -/

namespace Sys2Proof

/-- An operand literal: `0x` with hex digits, `0b` with binary digits, or decimal digits, each list as written. -/
inductive Literal where
  | hex (ds : List (Fin 16))
  | bin (ds : List Bool)
  | dec (ds : List (Fin 10))
deriving DecidableEq, Repr

/-- The operand forms of R70: LDKEY's key, an FB byte, an FN nibble, the word of `.word`. -/
inductive OperandForm where
  | key
  | byte
  | nibble
  | word
deriving DecidableEq, Repr

/-- The integer a literal denotes, first digit most significant (R70: the first binary digit is index 0). -/
def Literal.value : Literal → Nat
  | .hex ds => ds.foldl (fun a d => 16 * a + d.val) 0
  | .bin ds => ds.foldl (fun a d => 2 * a + d.toNat) 0
  | .dec ds => ds.foldl (fun a d => 10 * a + d.val) 0

/-- Is a literal a legal operand of a form (R70, with the digit counts written there; log entry 13)? -/
def Literal.fits : Literal → OperandForm → Bool
  | .bin ds, .key => ds.length == 10
  | .hex _, .key => false
  | .dec _, .key => false
  | .hex ds, .byte => ds.length == 2
  | .bin ds, .byte => ds.length == 8
  | .dec ds, .byte => decide ((Literal.dec ds).value ≤ 255) && !ds.isEmpty
  | .hex ds, .nibble => ds.length == 1
  | .bin ds, .nibble => ds.length == 4
  | .dec ds, .nibble => decide ((Literal.dec ds).value ≤ 15) && !ds.isEmpty
  | .hex ds, .word => ds.length == 4
  | .bin _, .word => false
  | .dec _, .word => false

end Sys2Proof
end

