-- ==== Sys2Proof/Decode.lean ====
section
/-! DEFINITION. Command words to commands and back (30_encoding.md R60 to R69), total on every 16-bit word: a word
is one command or is rejected by the name of its error. -/

namespace Sys2Proof

/-- The command errors (60_exceptions.md R190). The decoder raises the first two, the key check of a command the third. -/
inductive CmdError where
  /-- `w[15:12]` is 0x0, 0xE or 0xF (R67). -/
  | illegalOpcode
  /-- A legal opcode whose reserved field is not zero (R68). -/
  | reservedNonzero
  /-- A key-dependent command while KV = 0 (R25). -/
  | keyNotLoaded
deriving DecidableEq, Repr

/-- What a command word is: a command, or the error it fails with. -/
inductive Decoded where
  | command (i : Instr)
  | rejected (e : CmdError)
deriving DecidableEq, Repr

/-- `op = w[15:12]` (R60). -/
def opField (w : Word) : Bits 4 := w.extractLsb' 12 4

/-- Format FK: key in `w[9:0]`, reserved `w[11:10]` (R61, R65, R68). -/
def decodeFK (mk : Key → Instr) (w : Word) : Decoded :=
  if w.extractLsb' 10 2 = 0#2 then .command (mk (w.extractLsb' 0 10)) else .rejected .reservedNonzero

/-- Format FB: byte in `w[7:0]`, reserved `w[11:8]` (R62, R65, R68). -/
def decodeFB (mk : Byte → Instr) (w : Word) : Decoded :=
  if w.extractLsb' 8 4 = 0#4 then .command (mk (w.extractLsb' 0 8)) else .rejected .reservedNonzero

/-- Format FN: nibble in `w[3:0]`, reserved `w[11:4]` (R63, R65, R68). -/
def decodeFN (mk : Nibble → Instr) (w : Word) : Decoded :=
  if w.extractLsb' 4 8 = 0#8 then .command (mk (w.extractLsb' 0 4)) else .rejected .reservedNonzero

/-- Format FZ: no operand, reserved `w[11:0]` (R64, R68). -/
def decodeFZ (i : Instr) (w : Word) : Decoded :=
  if w.extractLsb' 0 12 = 0#12 then .command i else .rejected .reservedNonzero

/-- The opcode map (R66). The last arm is reached by 0x0, 0xE and 0xF alone, the illegal opcodes of R67. -/
def decode (w : Word) : Decoded :=
  match (opField w).toNat with
  | 0x1 => decodeFK .ldkey w
  | 0x2 => decodeFB .enc w
  | 0x3 => decodeFB .dec w
  | 0x4 => decodeFB .ip w
  | 0x5 => decodeFB .ipinv w
  | 0x6 => decodeFN .ep w
  | 0x7 => decodeFN .p4 w
  | 0x8 => decodeFN .s0 w
  | 0x9 => decodeFN .s1 w
  | 0xA => decodeFZ .sk1 w
  | 0xB => decodeFZ .sk2 w
  | 0xC => decodeFB .fk1 w
  | 0xD => decodeFB .fk2 w
  | _ => .rejected .illegalOpcode

/-- Patterns `oooo00kkkkkkkkkk`, `oooo0000bbbbbbbb`, `oooo00000000nnnn`, `oooo000000000000` (R61 to R64). -/
def wordFK (op : Bits 4) (k : Key) : Word := op ++ 0#2 ++ k
def wordFB (op : Bits 4) (b : Byte) : Word := op ++ 0#4 ++ b
def wordFN (op : Bits 4) (n : Nibble) : Word := op ++ 0#8 ++ n
def wordFZ (op : Bits 4) : Word := op ++ 0#12

/-- The word of a command (R66, column "encoding" of spec/opcode_table.json). -/
def encode : Instr → Word
  | .ldkey k => wordFK 0x1#4 k
  | .enc b => wordFB 0x2#4 b
  | .dec b => wordFB 0x3#4 b
  | .ip b => wordFB 0x4#4 b
  | .ipinv b => wordFB 0x5#4 b
  | .ep n => wordFN 0x6#4 n
  | .p4 n => wordFN 0x7#4 n
  | .s0 n => wordFN 0x8#4 n
  | .s1 n => wordFN 0x9#4 n
  | .sk1 => wordFZ 0xA#4
  | .sk2 => wordFZ 0xB#4
  | .fk1 b => wordFB 0xC#4 b
  | .fk2 b => wordFB 0xD#4 b

/-- Column "key" of the opcode map: the command needs KV = 1 (R66, R191). -/
def Instr.needsKey : Instr → Bool
  | .ldkey _ => false
  | .enc _ => true
  | .dec _ => true
  | .ip _ => false
  | .ipinv _ => false
  | .ep _ => false
  | .p4 _ => false
  | .s0 _ => false
  | .s1 _ => false
  | .sk1 => true
  | .sk2 => true
  | .fk1 _ => true
  | .fk2 _ => true

/-- Column "match" of the opcode map (R66). -/
def Instr.rowMatch : Instr → Word
  | .ldkey _ => 0x1000#16
  | .enc _ => 0x2000#16
  | .dec _ => 0x3000#16
  | .ip _ => 0x4000#16
  | .ipinv _ => 0x5000#16
  | .ep _ => 0x6000#16
  | .p4 _ => 0x7000#16
  | .s0 _ => 0x8000#16
  | .s1 _ => 0x9000#16
  | .sk1 => 0xA000#16
  | .sk2 => 0xB000#16
  | .fk1 _ => 0xC000#16
  | .fk2 _ => 0xD000#16

/-- Column "mask" of the opcode map (R66). -/
def Instr.rowMask : Instr → Word
  | .ldkey _ => 0xFC00#16
  | .enc _ => 0xFF00#16
  | .dec _ => 0xFF00#16
  | .ip _ => 0xFF00#16
  | .ipinv _ => 0xFF00#16
  | .ep _ => 0xFFF0#16
  | .p4 _ => 0xFFF0#16
  | .s0 _ => 0xFFF0#16
  | .s1 _ => 0xFFF0#16
  | .sk1 => 0xFFFF#16
  | .sk2 => 0xFFFF#16
  | .fk1 _ => 0xFF00#16
  | .fk2 _ => 0xFF00#16

/-- The command word of an opcode-table row's bits: the low `nbits` bits of `w`, the rest 0 (log entry 9). -/
def tableWord (nbits w : Nat) : Word := BitVec.ofNat 16 (w % 2 ^ nbits)

/-- What the decoder reads from a word numbered as spec/opcode_table.json numbers it: a command is exactly one 16-bit
word (R60), so a longer one is none (log entry 9). -/
def decodeTableWord (nbits w : Nat) : Option Instr :=
  if nbits ≤ 16 then
    match decode (tableWord nbits w) with
    | .command i => some i
    | .rejected _ => none
  else none

end Sys2Proof
end

