-- ==== Sys2Proof/Config.lean ====
section
/-! DEFINITION. What an implementation fixes (00_scope.md R6): the four open tables, their named checks
(40_permutation_unit.md R88), and the free values of the model. The opaque constants have no body: no proof can
see what they are, so a claim about them holds whatever they are. -/

namespace Sys2Proof

/-- The four open tables as a host supplies them, before any check (R6). -/
structure SdesConfig where
  pIp : List Nat
  pIpInv : List Nat
  pEpv1 : List Nat
  pEpv2 : List Nat
deriving DecidableEq, Repr

/-- REFCFG, the textbook tables of 00_scope.md R9: for test vectors only. -/
def SdesConfig.refCfg : SdesConfig where
  pIp := [1, 5, 2, 0, 3, 7, 4, 6]
  pIpInv := [3, 0, 2, 4, 6, 1, 7, 5]
  pEpv1 := [0, 6, 8, 3, 7, 2, 9, 5]
  pEpv2 := [7, 2, 5, 4, 9, 1, 8, 0]

/-- The ten named checks of R88. -/
inductive ConfigCheck where
  | wfIpLen
  | wfIpRange
  | wfIpPerm
  | wfIpInvLen
  | wfIpInvRange
  | wfIpInvInverse
  | wfEpv1Len
  | wfEpv1Range
  | wfEpv2Len
  | wfEpv2Range
deriving DecidableEq, Repr

/-- The checks in the order of R88's table. -/
def ConfigCheck.all : List ConfigCheck :=
  [.wfIpLen, .wfIpRange, .wfIpPerm, .wfIpInvLen, .wfIpInvRange, .wfIpInvInverse,
   .wfEpv1Len, .wfEpv1Range, .wfEpv2Len, .wfEpv2Range]

/-- Does a configuration pass one named check (R88, column "condition")? -/
def SdesConfig.passes (c : SdesConfig) : ConfigCheck → Bool
  | .wfIpLen => c.pIp.length == 8
  | .wfIpRange => c.pIp.all (· < 8)
  | .wfIpPerm => decide c.pIp.Nodup
  | .wfIpInvLen => c.pIpInv.length == 8
  | .wfIpInvRange => c.pIpInv.all (· < 8)
  | .wfIpInvInverse => (List.range 8).all fun i => (c.pIpInv[i]?.bind fun j => c.pIp[j]?) == some i
  | .wfEpv1Len => c.pEpv1.length == 8
  | .wfEpv1Range => c.pEpv1.all (· < 10)
  | .wfEpv2Len => c.pEpv2.length == 8
  | .wfEpv2Range => c.pEpv2.all (· < 10)

/-- Well-formed: all ten checks pass (R88). -/
def SdesConfig.wellFormed (c : SdesConfig) : Bool :=
  ConfigCheck.all.all c.passes

/-- The first check, in R88's order, that a configuration fails (log entry 19). -/
def SdesConfig.firstFailing (c : SdesConfig) : Option ConfigCheck :=
  ConfigCheck.all.find? fun k => !c.passes k

/-- A well-formed configuration: the raw tables with the fact that they pass. The default value (REFCFG) serves
only to show that the type is inhabited (log entry 21); nothing in the machine uses it. -/
structure WfConfig where
  raw : SdesConfig := .refCfg
  ok : raw.wellFormed = true := by decide
deriving DecidableEq, Repr, Inhabited

/-- REFCFG as a well-formed configuration (R9), for test vectors only. -/
def WfConfig.refCfg : WfConfig := ⟨.refCfg, by decide⟩

theorem SdesConfig.passes_of_wellFormed {c : SdesConfig} (h : c.wellFormed = true) (k : ConfigCheck) :
    c.passes k = true := by
  have hk : k ∈ ConfigCheck.all := by cases k <;> decide
  exact List.all_eq_true.mp h k hk

theorem SdesConfig.wellFormed_of_firstFailing (c : SdesConfig) (h : c.firstFailing = none) :
    c.wellFormed = true := by
  simpa [SdesConfig.firstFailing, SdesConfig.wellFormed, List.find?_eq_none, List.all_eq_true] using h

/-- A list of indices as a table of `m` entries, each in `0 .. n-1`: the length and the range are part of the type,
so that a selection through it cannot be out of range (R80, R194). -/
def tableOf (n m : Nat) (T : List Nat) (hlen : T.length = m) (hrange : ∀ x ∈ T, x < n) : Vector (Fin n) m :=
  ⟨(T.attach.map fun x => (⟨x.1, hrange x.1 x.2⟩ : Fin n)).toArray, by simp [hlen]⟩

/-- `P_IP` (R6). -/
def WfConfig.ip (c : WfConfig) : Vector (Fin 8) 8 :=
  tableOf 8 8 c.raw.pIp (by simpa [SdesConfig.passes] using c.raw.passes_of_wellFormed c.ok .wfIpLen)
    (by simpa [SdesConfig.passes] using c.raw.passes_of_wellFormed c.ok .wfIpRange)

/-- `P_IPINV` (R6). -/
def WfConfig.ipInv (c : WfConfig) : Vector (Fin 8) 8 :=
  tableOf 8 8 c.raw.pIpInv (by simpa [SdesConfig.passes] using c.raw.passes_of_wellFormed c.ok .wfIpInvLen)
    (by simpa [SdesConfig.passes] using c.raw.passes_of_wellFormed c.ok .wfIpInvRange)

/-- `P_EPV1` (R6). -/
def WfConfig.epv1 (c : WfConfig) : Vector (Fin 10) 8 :=
  tableOf 10 8 c.raw.pEpv1 (by simpa [SdesConfig.passes] using c.raw.passes_of_wellFormed c.ok .wfEpv1Len)
    (by simpa [SdesConfig.passes] using c.raw.passes_of_wellFormed c.ok .wfEpv1Range)

/-- `P_EPV2` (R6). -/
def WfConfig.epv2 (c : WfConfig) : Vector (Fin 10) 8 :=
  tableOf 10 8 c.raw.pEpv2 (by simpa [SdesConfig.passes] using c.raw.passes_of_wellFormed c.ok .wfEpv2Len)
    (by simpa [SdesConfig.passes] using c.raw.passes_of_wellFormed c.ok .wfEpv2Range)

/-- The configuration of the engine that `step` runs: some well-formed one, and no proof can tell which (R6, D2;
log entry 1). -/
opaque Config.engine : WfConfig

/-- What KEY holds after the n-th reset (numbered from 0, power-on first): unspecified (R22, R220), a value nobody
wrote and not zero (R221; log entry 2). -/
opaque Config.unwrittenKey : Nat → Key

/-- `P_BASE`, where the port stands in the host's address map: a parameter that no rule reads (R47; log entry 12). -/
opaque Config.portBase : Nat

end Sys2Proof
end

