-- ==== Sys2Proof/Machine/State.lean ====
section
/-! DEFINITION. The state of SDES-CORE (10_state.md R20), the host's accesses to its port (20_memory.md R41), and the
reasons a step can stop. State is plain data. -/

namespace Sys2Proof.Machine

/-- One access of the host: a 16-bit write or read at a 2-bit address (R41), or reset (70_reset_and_hazards.md R220). -/
inductive HostAccess where
  | write (addr : Bits 2) (data : Word)
  | read (addr : Bits 2)
  | reset
deriving DecidableEq, Repr

/-- The architectural state, exactly KEY, DOUT, KV, ERR and ECODE (R20), and three fields of the model's own that hold
the outside of the port: the host's accesses still to be served, what its reads have returned, and the number of
resets (log entries 3, 4, 5). -/
structure State where
  /-- KEY, in vector order (R22). -/
  key : Key
  /-- DOUT (R23). -/
  dout : Byte
  /-- STATUS.KV, a key has been loaded since reset (R25). -/
  kv : Bool
  /-- STATUS.ERR, some command has failed since reset (R26). -/
  err : Bool
  /-- STATUS.ECODE, the code of the first failure since reset (R27). -/
  ecode : Bits 2
  /-- The model's own: the host's accesses not yet served, oldest first (R29, R48). -/
  pending : List HostAccess
  /-- The model's own: the values the host's reads have returned, oldest first (R41). -/
  replies : List Word
  /-- The model's own: how many resets there have been; the index of the next free value of KEY. -/
  resets : Nat
deriving DecidableEq, Repr

/-- A fault stops the machine. The spec gives SDES-CORE none: every command word runs a command or raises an error after
which later commands run (30_encoding.md R72, 60_exceptions.md R192, R198), so this type has no constructor
(log entry 7). -/
inductive Fault where
deriving DecidableEq, Repr

/-- Why the model gives no meaning. -/
inductive Refusal where
  /-- Raised by an arm of `exec` whose instruction has no meaning yet; no arm raises it now. Safe. -/
  | notModelled (mnemonic : String)
  /-- Raised by `stepUnder` for a configuration that fails a named check (40_permutation_unit.md R88). Safe: nothing can
  be proved of a misconfigured engine (60_exceptions.md R194). -/
  | badConfig (check : ConfigCheck)
deriving DecidableEq, Repr

/-- The machine right after power-on (70_reset_and_hazards.md R220). KEY is unspecified there: the free value
`Config.unwrittenKey 0` (log entry 2). -/
def State.reset : State where
  key := Config.unwrittenKey 0
  dout := 0x00#8
  kv := false
  err := false
  ecode := 0#2
  pending := []
  replies := []
  resets := 1

end Sys2Proof.Machine
end

