-- ==== Sys2Proof/Machine/Flags.lean ====
section
/-! DEFINITION. The STATUS register (10_state.md R24 to R28): its layout, the error codes, and how a failing command
changes ERR and ECODE. SDES-CORE has no other flag (R32). -/

namespace Sys2Proof.Machine

/-- The code an error leaves in ECODE (60_exceptions.md R190; 00 means none). -/
def errorCode : CmdError → Bits 2
  | .illegalOpcode => 0b01#2
  | .reservedNonzero => 0b10#2
  | .keyNotLoaded => 0b11#2

/-- ECODE after an error: the first code since reset is kept (R27, R192). -/
def nextEcode (e : CmdError) (s : State) : Bits 2 :=
  if s.err then s.ecode else errorCode e

/-- STATUS as a byte: `[7:4]` hardwired 0, `[3:2]` ECODE, `[1]` ERR, `[0]` KV (R24, R28). -/
def statusWord (s : State) : Byte :=
  0#4 ++ s.ecode ++ BitVec.ofBool s.err ++ BitVec.ofBool s.kv

end Sys2Proof.Machine
end

