-- ==== Sys2Proof/Machine/Ops.lean ====
section
/-! DEFINITION. The bit-vector primitives (40_permutation_unit.md R80 to R85) and the shared operations on State: writing
a result (30_encoding.md R73), loading the key, raising a command error (60_exceptions.md R192: the one way an
instruction fails; nothing returns from it, R199) and reset (70_reset_and_hazards.md R220). The source's failures of
the primitives cannot arise: lengths and ranges are types (log entry 14). XOR (R82) is `^^^`, concatenation (R83) `++`. -/

namespace Sys2Proof.Machine

/-- The vector whose element `i`, counted from the most significant end, is `f i`. -/
def bitsOfFn : (m : Nat) → (Fin m → Bool) → Bits m
  | 0, _ => 0#0
  | m + 1, f => (bitsOfFn m fun i => f i.castSucc).concat (f (Fin.last m))

/-- `permuteSelect(v, T)`: output element `i` is `v⟨T[i]⟩` (R80). -/
def permuteSelect {n m : Nat} (v : Bits n) (T : Vector (Fin n) m) : Bits m :=
  bitsOfFn m fun i => v.getMsbD (T.get i).val

/-- `leftHalf(v) = v⟨0..3⟩` (R81; used on 8-bit vectors only). -/
def leftHalf (v : Byte) : Nibble := v.extractLsb' 4 4

/-- `rightHalf(v) = v⟨4..7⟩` (R81). -/
def rightHalf (v : Byte) : Nibble := v.extractLsb' 0 4

/-- `byteToBits(b, size)`, on values that fit (R84). -/
def byteToBits (size b : Nat) (fits : b < 2 ^ size) : Bits size := BitVec.ofNatLT b fits

/-- `bitsToByte(v) = val(v)` (R85, 00_scope.md R12). -/
def bitsToByte {n : Nat} (v : Bits n) : Nat := v.toNat

/-- `zext_8(v)`: zeros in front (00_scope.md R13). -/
def zext8 {n : Nat} (v : Bits n) : Byte := v.setWidth 8

/-- A byte register on the 16-bit bus, `bus[15:8] = 0` (20_memory.md R41). -/
def zext16 (v : Byte) : Word := v.setWidth 16

/-- `DOUT <- zext_8(res)` (30_encoding.md R73). -/
def State.writeResult {n : Nat} (res : Bits n) (s : State) : State := { s with dout := zext8 res }

/-- `KEY <- keyv`, `STATUS.KV <- 1` (41_key_schedule.md R112). -/
def State.loadKey (k : Key) (s : State) : State := { s with key := k, kv := true }

/-- `raise CmdError(e)`: ERR <- 1, and ECODE <- the code if ERR was 0; KEY, DOUT and KV unchanged (R192). -/
def State.raiseError (e : CmdError) (s : State) : State := { s with err := true, ecode := nextEcode e s }

/-- Reset: every register at its reset value, KEY at a fresh unspecified value (R220; log entries 2, 17). -/
def State.resetEngine (s : State) : State :=
  { s with key := Config.unwrittenKey s.resets, dout := 0x00#8, kv := false, err := false, ecode := 0#2,
           resets := s.resets + 1 }

/-- The host's remaining accesses (R48). -/
def State.setPending (l : List HostAccess) (s : State) : State := { s with pending := l }

/-- A read's value reaches the host (R41). -/
def State.reply (v : Word) (s : State) : State := { s with replies := s.replies ++ [v] }

/-- A command that needs no key: its result goes to DOUT. -/
def finish {n : Nat} (res : Bits n) (s : State) : Host.Outcome State Fault Refusal := .next (s.writeResult res)

/-- A key-dependent command: its result goes to DOUT if KV = 1, else KEY_NOT_LOADED (R191, R192). -/
def finishKeyed {n : Nat} (res : Bits n) (s : State) : Host.Outcome State Fault Refusal :=
  if s.kv then .next (s.writeResult res) else .next (s.raiseError .keyNotLoaded)

end Sys2Proof.Machine
end

