-- ==== Sys2Proof/Machine/Operands.lean ====
section
/-! DEFINITION. The operands that are not in the command word: the subkeys K1 and K2, combinational functions of KEY that
every command recomputes (41_key_schedule.md R110, R111). The operand fields of the word itself (30_encoding.md
R61 to R65) are taken by the decoder: the field `w[n-1:0]`, read as a `BitVec n`, is the vector with
`v⟨i⟩ = w[n-1-i]`. -/

namespace Sys2Proof.Machine

/-- `K1 = permuteSelect(KEY, P_EPV1)` (R110). -/
def subkey1 (c : WfConfig) (key : Key) : Byte := permuteSelect key c.epv1

/-- `K2 = permuteSelect(KEY, P_EPV2)` (R110). -/
def subkey2 (c : WfConfig) (key : Key) : Byte := permuteSelect key c.epv2

end Sys2Proof.Machine
end

