-- ==== Sys2Proof/Machine/KeySchedule.lean ====
section
/-! DEFINITION. The commands of the key schedule (41_key_schedule.md): LDKEY, SK1, SK2. -/

namespace Sys2Proof.Machine

/-- LDKEY: `KEY <- keyv`, `STATUS.KV <- 1`; DOUT, ERR and ECODE unchanged (R112). -/
def execLdkey (k : Key) (s : State) : Host.Outcome State Fault Refusal := .next (s.loadKey k)

/-- SK1 under a given configuration: `DOUT <- K1` (R113). -/
def execSk1In (c : WfConfig) (s : State) : Host.Outcome State Fault Refusal := finishKeyed (subkey1 c s.key) s

/-- SK1 (R113). -/
def execSk1 (s : State) : Host.Outcome State Fault Refusal := execSk1In Config.engine s

/-- SK2 under a given configuration: `DOUT <- K2` (R114). -/
def execSk2In (c : WfConfig) (s : State) : Host.Outcome State Fault Refusal := finishKeyed (subkey2 c s.key) s

/-- SK2 (R114). -/
def execSk2 (s : State) : Host.Outcome State Fault Refusal := execSk2In Config.engine s

end Sys2Proof.Machine
end

