-- ==== Sys2Proof/Machine/Permutation.lean ====
section
/-! DEFINITION. The bit-permutation unit (40_permutation_unit.md): IP, IP⁻¹, EP, P4 and the commands that expose them.
A function that reads an open table takes the configuration as an argument (00_scope.md R6). -/

namespace Sys2Proof.Machine

/-- EP = `[3,0,1,2,1,2,3,0]` (R87, 00_scope.md R7). -/
def epTable : Vector (Fin 4) 8 := #v[3, 0, 1, 2, 1, 2, 3, 0]

/-- P4 = `[1,3,2,0]` (R87, 00_scope.md R7). -/
def p4Table : Vector (Fin 4) 4 := #v[1, 3, 2, 0]

/-- `ipPerm(x)` (R86). -/
def ipPerm (c : WfConfig) (x : Byte) : Byte := permuteSelect x c.ip

/-- `ipInvPerm(y)` (R86). -/
def ipInvPerm (c : WfConfig) (y : Byte) : Byte := permuteSelect y c.ipInv

/-- `epExpand(r)` (R87). -/
def epExpand (r : Nibble) : Byte := permuteSelect r epTable

/-- `p4Perm(p)` (R87). -/
def p4Perm (p : Nibble) : Nibble := permuteSelect p p4Table

/-- IP under a given configuration: `DOUT <- ipPerm(bytev)` (R90). -/
def execIpIn (c : WfConfig) (b : Byte) (s : State) : Host.Outcome State Fault Refusal := finish (ipPerm c b) s

/-- IP (R90). -/
def execIp (b : Byte) (s : State) : Host.Outcome State Fault Refusal := execIpIn Config.engine b s

/-- IPINV under a given configuration: `DOUT <- ipInvPerm(bytev)` (R91). -/
def execIpinvIn (c : WfConfig) (b : Byte) (s : State) : Host.Outcome State Fault Refusal := finish (ipInvPerm c b) s

/-- IPINV (R91). -/
def execIpinv (b : Byte) (s : State) : Host.Outcome State Fault Refusal := execIpinvIn Config.engine b s

/-- EP: `DOUT <- epExpand(nibv)` (R92). -/
def execEp (n : Nibble) (s : State) : Host.Outcome State Fault Refusal := finish (epExpand n) s

/-- P4: `DOUT <- zext_8(p4Perm(nibv))` (R93). -/
def execP4 (n : Nibble) (s : State) : Host.Outcome State Fault Refusal := finish (p4Perm n) s

end Sys2Proof.Machine
end

