-- ==== Sys2Proof/Machine/SBox.lean ====
section
/-! DEFINITION. The substitution boxes as literal 16-entry tables (42_sbox.md R130 to R133) and the commands S0 and S1. -/

namespace Sys2Proof.Machine

/-- S0, indexed by `val(b0b1b2b3)` (R132). -/
def s0Table : Vector (Fin 4) 16 := #v[1, 3, 0, 2, 3, 1, 2, 0, 0, 3, 2, 1, 1, 3, 3, 2]

/-- S1, indexed by `val(b0b1b2b3)` (R133). -/
def s1Table : Vector (Fin 4) 16 := #v[0, 2, 1, 0, 2, 1, 3, 3, 3, 2, 0, 1, 1, 0, 0, 3]

/-- `bitsOf_2(T[val(a)])` (R130). -/
def sboxLookup (T : Vector (Fin 4) 16) (a : Nibble) : Bits 2 :=
  byteToBits 2 (T[bitsToByte a]'a.isLt).val (T[bitsToByte a]'a.isLt).isLt

/-- S-box 0. -/
def sbox0 (a : Nibble) : Bits 2 := sboxLookup s0Table a

/-- S-box 1. -/
def sbox1 (a : Nibble) : Bits 2 := sboxLookup s1Table a

/-- S0: `DOUT <- zext_8(bitsOf_2(S0[val(nibv)]))` (R135). -/
def execS0 (n : Nibble) (s : State) : Host.Outcome State Fault Refusal := finish (sbox0 n) s

/-- S1: `DOUT <- zext_8(bitsOf_2(S1[val(nibv)]))` (R136). -/
def execS1 (n : Nibble) (s : State) : Host.Outcome State Fault Refusal := finish (sbox1 n) s

end Sys2Proof.Machine
end

