-- ==== Sys2Proof/Machine/Round.lean ====
section
/-! DEFINITION. The Feistel round function F (43_round_function.md R150) and the commands FK1 and FK2. -/

namespace Sys2Proof.Machine

/-- Steps 2 to 5 of R150: the value Z that a round adds to the left half, from the right half and the subkey. -/
def roundZ (r : Nibble) (sk : Byte) : Nibble :=
  let x := epExpand r ^^^ sk
  p4Perm (sbox0 (leftHalf x) ++ sbox1 (rightHalf x))

/-- `F(blk, sk) = (Z ⊕ L) ++ R` (R150). -/
def roundF (blk sk : Byte) : Byte :=
  (roundZ (rightHalf blk) sk ^^^ leftHalf blk) ++ rightHalf blk

/-- FK1 under a given configuration: `DOUT <- F(bytev, K1)` (R152). -/
def execFk1In (c : WfConfig) (b : Byte) (s : State) : Host.Outcome State Fault Refusal :=
  finishKeyed (roundF b (subkey1 c s.key)) s

/-- FK1 (R152). -/
def execFk1 (b : Byte) (s : State) : Host.Outcome State Fault Refusal := execFk1In Config.engine b s

/-- FK2 under a given configuration: `DOUT <- F(bytev, K2)` (R153). -/
def execFk2In (c : WfConfig) (b : Byte) (s : State) : Host.Outcome State Fault Refusal :=
  finishKeyed (roundF b (subkey2 c s.key)) s

/-- FK2 (R153). -/
def execFk2 (b : Byte) (s : State) : Host.Outcome State Fault Refusal := execFk2In Config.engine b s

end Sys2Proof.Machine
end

