-- ==== Sys2Proof/Machine/Pipeline.lean ====
section
/-! DEFINITION. The two-round pipeline (44_pipeline.md R170 to R172) and the commands ENC and DEC. -/

namespace Sys2Proof.Machine

/-- `swap(v) = rightHalf(v) ++ leftHalf(v)` (R170). -/
def swapHalves (v : Byte) : Byte := rightHalf v ++ leftHalf v

/-- `G(v, ka, kb) = F(swap(F(v, ka)), kb)`, the part of the pipeline that reads no open table (R173 (e)). -/
def innerNetwork (v ka kb : Byte) : Byte := roundF (swapHalves (roundF v ka)) kb

/-- `pipe(x, ka, kb)`: IP, F with ka, swap, F with kb, IP⁻¹ (R171). -/
def pipe (c : WfConfig) (x ka kb : Byte) : Byte := ipInvPerm c (innerNetwork (ipPerm c x) ka kb)

/-- `encryptByte(x) = pipe(x, K1, K2)` (R171). -/
def encryptByte (c : WfConfig) (key : Key) (x : Byte) : Byte := pipe c x (subkey1 c key) (subkey2 c key)

/-- `decryptByte(y) = pipe(y, K2, K1)` (R172). -/
def decryptByte (c : WfConfig) (key : Key) (y : Byte) : Byte := pipe c y (subkey2 c key) (subkey1 c key)

/-- ENC under a given configuration: `DOUT <- encryptByte(bytev)` (R174). -/
def execEncIn (c : WfConfig) (b : Byte) (s : State) : Host.Outcome State Fault Refusal :=
  finishKeyed (encryptByte c s.key b) s

/-- ENC (R174). -/
def execEnc (b : Byte) (s : State) : Host.Outcome State Fault Refusal := execEncIn Config.engine b s

/-- DEC under a given configuration: `DOUT <- decryptByte(bytev)` (R175). -/
def execDecIn (c : WfConfig) (b : Byte) (s : State) : Host.Outcome State Fault Refusal :=
  finishKeyed (decryptByte c s.key b) s

/-- DEC (R175). -/
def execDec (b : Byte) (s : State) : Host.Outcome State Fault Refusal := execDecIn Config.engine b s

end Sys2Proof.Machine
end

