-- ==== Sys2Proof/Machine/Dispatch.lean ====
section
/-! DEFINITION. The meaning of each command (30_encoding.md R72, "case op of"). -/

namespace Sys2Proof.Machine

def exec (i : Instr) (s : State) : Host.Outcome State Fault Refusal :=
  match i with
  | .ldkey k => Sys2Proof.Machine.execLdkey k s
  | .enc b => Sys2Proof.Machine.execEnc b s
  | .dec b => Sys2Proof.Machine.execDec b s
  | .ip b => Sys2Proof.Machine.execIp b s
  | .ipinv b => Sys2Proof.Machine.execIpinv b s
  | .ep n => Sys2Proof.Machine.execEp n s
  | .p4 n => Sys2Proof.Machine.execP4 n s
  | .s0 n => Sys2Proof.Machine.execS0 n s
  | .s1 n => Sys2Proof.Machine.execS1 n s
  | .sk1 => Sys2Proof.Machine.execSk1 s
  | .sk2 => Sys2Proof.Machine.execSk2 s
  | .fk1 b => Sys2Proof.Machine.execFk1 b s
  | .fk2 b => Sys2Proof.Machine.execFk2 b s

end Sys2Proof.Machine
end

