-- ==== Sys2Proof/Machine/Port.lean ====
section
/-! DEFINITION. The host port (20_memory.md): serving one access of the host to completion (R42, R43, R48). The functions
take the meaning of a command as an argument, so that the engine (`exec`) and an engine under any given configuration
(`execIn`) are served by the same port. -/

namespace Sys2Proof.Machine

/-- The four registers of the port (R41). -/
inductive PortReg where
  | cmd
  | dout
  | status
  | reserved
deriving DecidableEq, Repr

/-- The host register map (R41, columns "A" and "name"). -/
def portReg (a : Bits 2) : PortReg :=
  match a.toNat with
  | 0 => .cmd
  | 1 => .dout
  | 2 => .status
  | _ => .reserved

/-- The addresses of CMD, DOUT and STATUS (R41). -/
def addrCmd : Bits 2 := 0#2
def addrDout : Bits 2 := 1#2
def addrStatus : Bits 2 := 2#2

/-- What a host read returns (R41). -/
def portRead (r : PortReg) (s : State) : Word :=
  match r with
  | .cmd => 0x0000#16
  | .dout => zext16 s.dout
  | .status => zext16 (statusWord s)
  | .reserved => 0x0000#16

/-- The command step (30_encoding.md R72): decode, whose errors come first and in the order of R193, then run the command,
whose own check is that of the key. -/
def commandStep (run : Instr → State → Host.Outcome State Fault Refusal) (w : Word) (s : State) :
    Host.Outcome State Fault Refusal :=
  match decode w with
  | .command i => run i s
  | .rejected e => .next (s.raiseError e)

/-- What a host write does: a write to CMD runs the command step, every other write nothing (R41, R43). -/
def portWrite (run : Instr → State → Host.Outcome State Fault Refusal) (r : PortReg) (w : Word) (s : State) :
    Host.Outcome State Fault Refusal :=
  match r with
  | .cmd => commandStep run w s
  | .dout => .next s
  | .status => .next s
  | .reserved => .next s

/-- One access of the host. -/
def serve (run : Instr → State → Host.Outcome State Fault Refusal) (a : HostAccess) (s : State) :
    Host.Outcome State Fault Refusal :=
  match a with
  | .write a w => portWrite run (portReg a) w s
  | .read a => .next (s.reply (portRead (portReg a) s))
  | .reset => .next s.resetEngine

/-- One step: the oldest pending access is taken and served (R48); with none, the engine is idle and its state holds
(60_exceptions.md R205). -/
def stepWith (run : Instr → State → Host.Outcome State Fault Refusal) (s : State) : Host.Outcome State Fault Refusal :=
  match s.pending with
  | [] => .next s
  | a :: rest => serve run a (s.setPending rest)

/-- The host is about to write a word to CMD: that write comes before its other accesses (log entry 6). -/
def State.pushCommand (w : Word) (s : State) : State := s.setPending (.write addrCmd w :: s.pending)

end Sys2Proof.Machine
end

