-- ==== Sys2Proof/Machine/Step.lean ====
section
/-! DEFINITION. One step of the machine: the engine serves one access of the host (20_memory.md R43, R48). -/

namespace Sys2Proof.Machine

/-- One step of the engine. -/
def step (s : State) : Host.Outcome State Fault Refusal := stepWith exec s

/-- `s` with a command word where `step` takes its next one: SDES-CORE has no program counter and fetches nothing
(10_state.md R29), so the word is the data of the host's next write to CMD (log entry 6). -/
def State.withFetchWord (s : State) (nbits w : Nat) : State := s.pushCommand (tableWord nbits w)

end Sys2Proof.Machine
end

