-- ==== Sys2Proof/Machine/Assembler.lean ====
section
/-! DEFINITION. The host's side of the port as the spec writes it: the assembler syntax of a host program
(30_encoding.md R70), its pseudo-instructions (R71), and the message-level procedures they expand to
(44_pipeline.md R178). A line assembles to the accesses it stands for, or is an assembly error (`none`). Lexical details
that R70 leaves open: log entry 13. -/

namespace Sys2Proof.Machine

/-- `ENCMSG b0, …, b(n-1)`: for each byte in order, ENC then RD DOUT (R71, R178). -/
def encMsg (m : List Byte) : List HostAccess :=
  m.flatMap fun b => [.write addrCmd (encode (.enc b)), .read addrDout]

/-- `DECMSG`: the same with DEC (R71, R178). -/
def decMsg (m : List Byte) : List HostAccess :=
  m.flatMap fun b => [.write addrCmd (encode (.dec b)), .read addrDout]

/-- A maximal run of characters without space, comma or semicolon; a comma is a token of its own. -/
abbrev Token := List Char

def isBlank (c : Char) : Bool := c == ' ' || c == '\t' || c == '\r'

/-- A finished token goes before the rest, an empty one is dropped. -/
def flushToken (cur : Token) (rest : List Token) : List Token :=
  if cur.isEmpty then rest else cur :: rest

/-- A line's tokens; `;` starts a comment (R70). -/
def tokenize : List Char → Token → List Token
  | [], cur => flushToken cur []
  | c :: cs, cur =>
    if c == ';' then flushToken cur []
    else if isBlank c then flushToken cur (tokenize cs [])
    else if c == ',' then flushToken cur ([','] :: tokenize cs [])
    else tokenize cs (cur ++ [c])

/-- A hex digit, in either case of its letter. -/
def hexDigit? (c : Char) : Option (Fin 16) :=
  if h : 48 ≤ c.toNat ∧ c.toNat ≤ 57 then some ⟨c.toNat - 48, by omega⟩
  else if h : 65 ≤ c.toNat ∧ c.toNat ≤ 70 then some ⟨c.toNat - 55, by omega⟩
  else if h : 97 ≤ c.toNat ∧ c.toNat ≤ 102 then some ⟨c.toNat - 87, by omega⟩
  else none

/-- A decimal digit. -/
def decDigit? (c : Char) : Option (Fin 10) :=
  if h : 48 ≤ c.toNat ∧ c.toNat ≤ 57 then some ⟨c.toNat - 48, by omega⟩ else none

/-- A binary digit. -/
def binDigit? (c : Char) : Option Bool :=
  if c == '0' then some false else if c == '1' then some true else none

/-- Every character's digit, or none where one has no digit. -/
def digits? {α : Type} (digit? : Char → Option α) : List Char → Option (List α)
  | [] => some []
  | c :: cs =>
    match digit? c, digits? digit? cs with
    | some d, some ds => some (d :: ds)
    | _, _ => none

/-- An operand token: `0x…`, `0b…` or decimal (R70). -/
def literal? (t : Token) : Option Literal :=
  match t with
  | '0' :: 'x' :: ds => (digits? hexDigit? ds).map .hex
  | '0' :: 'b' :: ds => (digits? binDigit? ds).map .bin
  | ds => (digits? decDigit? ds).map .dec

/-- The value of an operand token that is legal for its form (R70). -/
def operand? (form : OperandForm) (t : Token) : Option Nat :=
  match literal? t with
  | some l => if l.fits form then some l.value else none
  | none => none

/-- The commands with an FB operand, by mnemonic (R66). -/
def byteCommand? (m : Token) : Option (Byte → Instr) :=
  if m = "ENC".toList then some .enc
  else if m = "DEC".toList then some .dec
  else if m = "IP".toList then some .ip
  else if m = "IPINV".toList then some .ipinv
  else if m = "FK1".toList then some .fk1
  else if m = "FK2".toList then some .fk2
  else none

/-- The commands with an FN operand, by mnemonic (R66). -/
def nibbleCommand? (m : Token) : Option (Nibble → Instr) :=
  if m = "EP".toList then some .ep
  else if m = "P4".toList then some .p4
  else if m = "S0".toList then some .s0
  else if m = "S1".toList then some .s1
  else none

/-- A line of one mnemonic and no operand (R66, R70, R71). -/
def assembleBare (m : Token) : Option (List HostAccess) :=
  if m = "SK1".toList then some [.write addrCmd (encode .sk1)]
  else if m = "SK2".toList then some [.write addrCmd (encode .sk2)]
  else if m = "RESET".toList then some [.reset]
  else if m = "CHECK".toList then some [.read addrStatus]
  else if m = "ENCMSG".toList ∨ m = "DECMSG".toList then some []
  else none

/-- A line of one mnemonic and one operand (R66, R70). -/
def assembleUnary (m t : Token) : Option (List HostAccess) :=
  if m = "RD".toList then
    if t = "DOUT".toList then some [.read addrDout]
    else if t = "STATUS".toList then some [.read addrStatus]
    else none
  else if m = ".word".toList then (operand? .word t).map fun v => [.write addrCmd (BitVec.ofNat 16 v)]
  else if m = "LDKEY".toList then
    (operand? .key t).map fun v => [.write addrCmd (encode (.ldkey (BitVec.ofNat 10 v)))]
  else
    match byteCommand? m, nibbleCommand? m with
    | some mk, _ => (operand? .byte t).map fun v => [.write addrCmd (encode (mk (BitVec.ofNat 8 v)))]
    | none, some mk => (operand? .nibble t).map fun v => [.write addrCmd (encode (mk (BitVec.ofNat 4 v)))]
    | none, none => none

/-- The bytes `b0, b1, …` of ENCMSG and DECMSG, at least one (R71). -/
def byteList? : List Token → Option (List Byte)
  | [] => none
  | [t] => (operand? .byte t).map fun v => [BitVec.ofNat 8 v]
  | t :: comma :: ts =>
    if comma = [','] then
      match operand? .byte t, byteList? ts with
      | some v, some bs => some (BitVec.ofNat 8 v :: bs)
      | _, _ => none
    else none

/-- The host accesses of a line's tokens. -/
def assembleTokens (ts : List Token) : Option (List HostAccess) :=
  match ts with
  | [] => some []
  | [m] => assembleBare m
  | m :: ops =>
    if m = "ENCMSG".toList then (byteList? ops).map encMsg
    else if m = "DECMSG".toList then (byteList? ops).map decMsg
    else
      match ops with
      | [t] => assembleUnary m t
      | _ => none

/-- The host accesses of one line (R70, R71). -/
def assembleLine (line : List Char) : Option (List HostAccess) := assembleTokens (tokenize line [])

/-- The host accesses of a program, one transaction per line (R70). -/
def assemble : List (List Char) → Option (List HostAccess)
  | [] => some []
  | line :: lines =>
    match assembleLine line, assemble lines with
    | some a, some as => some (a ++ as)
    | _, _ => none

/-- The host issues accesses after those it has issued already (20_memory.md R48). -/
def State.issue (l : List HostAccess) (s : State) : State := s.setPending (s.pending ++ l)

end Sys2Proof.Machine
end

