-- ==== Sys2Proof/Machine/Configured.lean ====
section
/-! DEFINITION. The machine with its configuration as an argument (00_scope.md R6: "A model takes the four tables as one
configuration argument"), and the refusal of a configuration that is not well-formed (40_permutation_unit.md R88).
`step` is this machine at `Config.engine`. -/

namespace Sys2Proof.Machine

/-- `exec` under a given configuration. -/
def execIn (c : WfConfig) (i : Instr) (s : State) : Host.Outcome State Fault Refusal :=
  match i with
  | .ldkey k => execLdkey k s
  | .enc b => execEncIn c b s
  | .dec b => execDecIn c b s
  | .ip b => execIpIn c b s
  | .ipinv b => execIpinvIn c b s
  | .ep n => execEp n s
  | .p4 n => execP4 n s
  | .s0 n => execS0 n s
  | .s1 n => execS1 n s
  | .sk1 => execSk1In c s
  | .sk2 => execSk2In c s
  | .fk1 b => execFk1In c b s
  | .fk2 b => execFk2In c b s

/-- `step` under a given configuration. -/
def stepIn (c : WfConfig) (s : State) : Host.Outcome State Fault Refusal := stepWith (execIn c) s

/-- `step` under raw tables: `refuse(BadConfig(check))` where a check of R88 fails. -/
def stepUnder (c : SdesConfig) (s : State) : Host.Outcome State Fault Refusal :=
  match h : c.firstFailing with
  | none => stepIn ⟨c, c.wellFormed_of_firstFailing h⟩ s
  | some k => .refused (.badConfig k)

end Sys2Proof.Machine
end

