-- ==== Sys2Proof/Safety.lean ====
section
/-! DEFINITION. What counts as a safe run, and the legal states. -/

namespace Sys2Proof

open Machine

/-- A clean state: no command has failed since reset. A claim about a host program takes this at its end as a premise
(60_exceptions.md R192). -/
def Clean (s : State) : Prop := s.err = false

/-- The legal states: ECODE = 00 exactly when ERR = 0 (10_state.md R24), and every value a read has returned has its upper
byte 0 (20_memory.md R41). -/
structure Legal (s : State) : Prop where
  ecode_iff : s.ecode = 0#2 ↔ s.err = false
  replies_narrow : ∀ r ∈ s.replies, r.toNat < 256

end Sys2Proof
end

