-- ==== Sys2Proof/Certificates/Slice0/Obligations.lean ====
section
/-! DEFINITION. The statements for the provers. A statement about a command's result gives the WHOLE next state as a record
update, so it is the command's completion and its frame at once: every field not named is unchanged. `Config.engine`
and `Config.unwrittenKey` are free values (log entries 1 and 2): each statement holds whatever they are. -/

namespace Sys2Proof.Machine

/-- The host makes one access now: a step with that access before the others. -/
def hostDoes (a : HostAccess) (s : State) : Host.Outcome State Fault Refusal :=
  step { s with pending := a :: s.pending }

/-- The host writes a word to CMD (20_memory.md R41, A = 0). -/
def cmdWrite (w : Word) (s : State) : Host.Outcome State Fault Refusal := hostDoes (.write 0#2 w) s

/-- The state a command error leaves: ERR <- 1, ECODE <- code if ERR was 0, nothing else (60_exceptions.md R192). -/
def failedWith (code : Bits 2) (s : State) : State :=
  { s with err := true, ecode := if s.err then s.ecode else code }

/-- The number of ones of a vector. -/
def ones {n : Nat} (v : Bits n) : Nat := (List.range n).countP fun i => v.getMsbD i

/-- A vector's elements as binary digits, index 0 first (30_encoding.md R70). -/
def binaryDigits {n : Nat} (v : Bits n) : List Char := (List.range n).map fun i => if v.getMsbD i then '1' else '0'

/-- A line, and the line with any comment after it, assembles to one write to CMD of a command's word (30_encoding.md R70). -/
def assemblesTo (line : List Char) (i : Instr) : Prop :=
  assembleLine line = some [.write 0#2 (encode i)] ∧
  ∀ comment : List Char, assembleLine (line ++ ';' :: comment) = some [.write 0#2 (encode i)]

/-- An access that is neither a CMD write nor a reset (20_memory.md R42, R43). -/
def quiet : HostAccess → Bool
  | .write a _ => decide (a ≠ 0#2)
  | .read _ => true
  | .reset => false

/-- What a quiet access returns to the host (20_memory.md R41). -/
def quietReply (s : State) : HostAccess → List Word
  | .write _ _ => []
  | .read a =>
    if a = 1#2 then [0#8 ++ s.dout]
    else if a = 2#2 then [0#8 ++ (0#4 ++ s.ecode ++ BitVec.ofBool s.err ++ BitVec.ofBool s.kv)]
    else [0#16]
  | .reset => []

end Sys2Proof.Machine

open Sys2Proof Sys2Proof.Machine

/-! ### Encoding -/

/-- Every command decodes back from its word (30_encoding.md R61 to R66). -/
def Obligations.DecodeOfEncode : Prop := ∀ i : Instr, decode (encode i) = .command i

/-- A word that decodes to a command is that command's word: no two words are one command (R60 to R69). -/
def Obligations.EncodeOfDecode : Prop := ∀ (w : Word) (i : Instr), decode w = .command i → encode i = w

/-- Words written out from the spec's patterns and examples decode to the commands they stand for (R61 to R66). -/
def Obligations.WrittenOutWordsDecode : Prop :=
  decode 0b0001001010000010#16 = .command (.ldkey 0b1010000010#10) ∧
  decode 0b0010000010010111#16 = .command (.enc 0x97#8) ∧
  decode 0b0100000010010111#16 = .command (.ip 0x97#8) ∧
  decode 0b0110000000001010#16 = .command (.ep 0b1010#4) ∧
  decode 0b1000000000001011#16 = .command (.s0 0b1011#4) ∧
  decode 0b1011000000000000#16 = .command .sk2 ∧
  decode 0b1100000001011101#16 = .command (.fk1 0x5D#8)

/-- R65: element `i` of an operand of `n` bits is word bit `n-1-i`. -/
def Obligations.OperandElementsAreWordBits : Prop :=
  ∀ w : Word,
    (∀ k, decode w = .command (.ldkey k) → ∀ i : Fin 10, k.getMsbD i.val = w.getLsbD (9 - i.val)) ∧
    (∀ b, decode w ∈ [.command (.enc b), .command (.dec b), .command (.ip b), .command (.ipinv b),
        .command (.fk1 b), .command (.fk2 b)] → ∀ i : Fin 8, b.getMsbD i.val = w.getLsbD (7 - i.val)) ∧
    (∀ n, decode w ∈ [.command (.ep n), .command (.p4 n), .command (.s0 n), .command (.s1 n)] →
      ∀ i : Fin 4, n.getMsbD i.val = w.getLsbD (3 - i.val))

/-- R190 to R193: which words written to CMD fail, with which code and in which order of priority, and what failing does;
a word that meets no condition leaves ERR and ECODE alone. -/
def Obligations.CommandWordErrors : Prop :=
  ∀ (w : Word) (s : State),
    let op := (w.extractLsb' 12 4).toNat
    let illegal := op ∈ [0x0, 0xE, 0xF]
    let reserved := (op = 0x1 ∧ w.extractLsb' 10 2 ≠ 0#2) ∨
      (op ∈ [0x2, 0x3, 0x4, 0x5, 0xC, 0xD] ∧ w.extractLsb' 8 4 ≠ 0#4) ∨
      (op ∈ [0x6, 0x7, 0x8, 0x9] ∧ w.extractLsb' 4 8 ≠ 0#8) ∨
      (op ∈ [0xA, 0xB] ∧ w.extractLsb' 0 12 ≠ 0#12)
    let noKey := op ∈ [0x2, 0x3, 0xA, 0xB, 0xC, 0xD] ∧ s.kv = false
    (illegal → cmdWrite w s = .next (failedWith 0b01#2 s)) ∧
    (¬illegal → reserved → cmdWrite w s = .next (failedWith 0b10#2 s)) ∧
    (¬illegal → ¬reserved → noKey → cmdWrite w s = .next (failedWith 0b11#2 s)) ∧
    (¬illegal → ¬reserved → ¬noKey → ∃ t, cmdWrite w s = .next t ∧ t.err = s.err ∧ t.ecode = s.ecode)

/-! ### The step and the port -/

/-- When the oldest pending access writes to CMD a word that decodes to `i`, the step is `exec i` on the state from which
that access is taken (20_memory.md R43, 30_encoding.md R72). -/
def Obligations.StepRunsDecodedCommand : Prop :=
  ∀ (s : State) (w : Word) (rest : List HostAccess) (i : Instr),
    s.pending = .write 0#2 w :: rest → decode w = .command i → step s = exec i { s with pending := rest }

/-- The word of any command, placed where `step` takes its next command, runs exactly that command (log entry 6). -/
def Obligations.FetchedEncodingRuns : Prop :=
  ∀ (i : Instr) (s : State), step (s.withFetchWord 16 (encode i).toNat) = exec i s

/-- R72, "The step is total": every step ends in a next state, with the access it served taken from the list. -/
def Obligations.EveryStepCompletes : Prop :=
  ∀ s : State, ∃ t, step s = .next t ∧ t.pending = s.pending.tail

/-- R41: what a read of each port address returns, and what a write to each does. -/
def Obligations.PortRegisterMap : Prop :=
  ∀ (s : State) (w : Word),
    hostDoes (.read 0#2) s = .next { s with replies := s.replies ++ [0x0000#16] } ∧
    hostDoes (.read 1#2) s = .next { s with replies := s.replies ++ [0#8 ++ s.dout] } ∧
    hostDoes (.read 2#2) s = .next { s with
      replies := s.replies ++ [0#8 ++ (0#4 ++ s.ecode ++ BitVec.ofBool s.err ++ BitVec.ofBool s.kv)] } ∧
    hostDoes (.read 3#2) s = .next { s with replies := s.replies ++ [0x0000#16] } ∧
    hostDoes (.write 0#2 w) s = commandStep exec w s ∧
    hostDoes (.write 1#2 w) s = .next s ∧
    hostDoes (.write 2#2 w) s = .next s ∧
    hostDoes (.write 3#2 w) s = .next s

/-- R24's layout, read by the host at address 2: KV in bit 0, ERR in bit 1, ECODE in bits 3:2, and bits 7:4 always 0000
(R28). -/
def Obligations.StatusBitsAsRead : Prop :=
  ∀ s : State, ∃ v : Word, hostDoes (.read 2#2) s = .next { s with replies := s.replies ++ [v] } ∧
    v.getLsbD 0 = s.kv ∧ v.getLsbD 1 = s.err ∧ v.extractLsb' 2 2 = s.ecode ∧
    v.extractLsb' 4 4 = 0b0000#4 ∧ v.extractLsb' 8 8 = 0x00#8

/-- R42, R43: any number of accesses that are neither CMD writes nor resets change no register and return, for each read,
what the registers held at the start. -/
def Obligations.QuietAccessesOnlyReply : Prop :=
  ∀ (l rest : List HostAccess) (s : State), (∀ a ∈ l, quiet a = true) →
    Host.Core.run core l.length { s with pending := l ++ rest } =
      .next { s with pending := rest, replies := s.replies ++ l.flatMap (quietReply s) }

/-- R48: a read of DOUT right after a command's write returns the DOUT that the command left. -/
def Obligations.ReadAfterCommandSeesItsResult : Prop :=
  ∀ (w : Word) (rest : List HostAccess) (s : State), ∃ t : State,
    commandStep exec w { s with pending := .read 1#2 :: rest } = .next t ∧
    Host.Core.run core 2 { s with pending := .write 0#2 w :: .read 1#2 :: rest } =
      .next { t with pending := rest, replies := s.replies ++ [0#8 ++ t.dout] }

/-- R220: reset puts DOUT, KV, ERR, ECODE and STATUS at their reset values, at any host RESET and at power-on. KEY is
unspecified there (a free value, log entry 2): nothing is said of it. -/
def Obligations.ResetValues : Prop :=
  (∀ s : State, ∃ t, hostDoes .reset s = .next t ∧ t.dout = 0b00000000#8 ∧ t.kv = false ∧ t.err = false ∧
    t.ecode = 0b00#2 ∧ statusWord t = 0b00000000#8) ∧
  (State.reset.dout = 0b00000000#8 ∧ State.reset.kv = false ∧ State.reset.err = false ∧ State.reset.ecode = 0b00#2 ∧
    statusWord State.reset = 0b00000000#8)

/-- R205: with no access of the host the engine's state holds. (One idle step is the model's form of it: log entry 3.) -/
def Obligations.IdleStateHolds : Prop := ∀ s : State, s.pending = [] → step s = .next s

/-! ### The commands, one statement each: result, errors, encoding, corner cases, example -/

/-- R112, LDKEY. -/
def Obligations.LdkeyLoadsKey : Prop :=
  (∀ (k : Key) (s : State), exec (.ldkey k) s = .next { s with key := k, kv := true }) ∧
  (∀ (w : Word) (s : State), w &&& 0xFC00#16 = 0x1000#16 →
    cmdWrite w s = exec (.ldkey (w.extractLsb' 0 10)) s) ∧
  (∀ (w : Word) (s : State), w.extractLsb' 12 4 = 0x1#4 → w.extractLsb' 10 2 ≠ 0#2 →
    cmdWrite w s = .next (failedWith 0b10#2 s)) ∧
  (∀ s : State, cmdWrite 0x1282#16 s = .next { s with key := 0b1010000010#10, kv := true })

/-- R174, ENC. The clause on encrypting twice holds both ways: that encrypting DOUT again does not undo encryption unless
K1 = K2 is R174's corner case; that it does undo it if K1 = K2 is R173 (d), an inference the spec marks as its own. -/
def Obligations.EncEncryptsByte : Prop :=
  (∀ (b : Byte) (s : State), s.kv = true →
    exec (.enc b) s = .next { s with dout := pipe Config.engine b (subkey1 Config.engine s.key) (subkey2 Config.engine s.key) }) ∧
  (∀ (b : Byte) (s : State), s.kv = false → exec (.enc b) s = .next (failedWith 0b11#2 s)) ∧
  (∀ (w : Word) (s : State), w &&& 0xFF00#16 = 0x2000#16 → cmdWrite w s = exec (.enc (w.extractLsb' 0 8)) s) ∧
  (∀ (w : Word) (s : State), w.extractLsb' 12 4 = 0x2#4 → w.extractLsb' 8 4 ≠ 0#4 →
    cmdWrite w s = .next (failedWith 0b10#2 s)) ∧
  (∀ (c : WfConfig) (k : Key),
    (∀ b : Byte, encryptByte c k (encryptByte c k b) = b) ↔ subkey1 c k = subkey2 c k) ∧
  (ipPerm .refCfg 0x97#8 = 0b01011101#8 ∧ roundF 0b01011101#8 0xA4#8 = 0b10101101#8 ∧
    swapHalves 0b10101101#8 = 0b11011010#8 ∧ roundF 0b11011010#8 0x43#8 = 0b00101010#8 ∧
    encryptByte .refCfg 0b1010000010#10 0x97#8 = 0x38#8)

/-- R175, DEC. -/
def Obligations.DecDecryptsByte : Prop :=
  (∀ (b : Byte) (s : State), s.kv = true →
    exec (.dec b) s = .next { s with dout := pipe Config.engine b (subkey2 Config.engine s.key) (subkey1 Config.engine s.key) }) ∧
  (∀ (b : Byte) (s : State), s.kv = false → exec (.dec b) s = .next (failedWith 0b11#2 s)) ∧
  (∀ (w : Word) (s : State), w &&& 0xFF00#16 = 0x3000#16 → cmdWrite w s = exec (.dec (w.extractLsb' 0 8)) s) ∧
  (∀ (w : Word) (s : State), w.extractLsb' 12 4 = 0x3#4 → w.extractLsb' 8 4 ≠ 0#4 →
    cmdWrite w s = .next (failedWith 0b10#2 s)) ∧
  (∀ (b : Byte) (s : State), s.kv = true → ∃ t, exec (.enc b) s = .next t ∧ exec (.dec t.dout) t = .next { s with dout := b }) ∧
  (ipPerm .refCfg 0x38#8 = 0b00101010#8 ∧ roundF 0b00101010#8 0x43#8 = 0b11011010#8 ∧
    swapHalves 0b11011010#8 = 0b10101101#8 ∧ roundF 0b10101101#8 0xA4#8 = 0b01011101#8 ∧
    decryptByte .refCfg 0b1010000010#10 0x38#8 = 0x97#8)

/-- R90, IP. -/
def Obligations.IpPermutesByte : Prop :=
  (∀ (b : Byte) (s : State), exec (.ip b) s = .next { s with dout := ipPerm Config.engine b }) ∧
  (∀ (w : Word) (s : State), w &&& 0xFF00#16 = 0x4000#16 → cmdWrite w s = exec (.ip (w.extractLsb' 0 8)) s) ∧
  (∀ (w : Word) (s : State), w.extractLsb' 12 4 = 0x4#4 → w.extractLsb' 8 4 ≠ 0#4 →
    cmdWrite w s = .next (failedWith 0b10#2 s)) ∧
  (∀ c : WfConfig, ipPerm c 0x00#8 = 0x00#8 ∧ ipPerm c 0xFF#8 = 0xFF#8) ∧
  (decode 0x4097#16 = .command (.ip 0x97#8) ∧ ipPerm .refCfg 0x97#8 = 0x5D#8)

/-- R91, IPINV. -/
def Obligations.IpinvPermutesByte : Prop :=
  (∀ (b : Byte) (s : State), exec (.ipinv b) s = .next { s with dout := ipInvPerm Config.engine b }) ∧
  (∀ (w : Word) (s : State), w &&& 0xFF00#16 = 0x5000#16 → cmdWrite w s = exec (.ipinv (w.extractLsb' 0 8)) s) ∧
  (∀ (w : Word) (s : State), w.extractLsb' 12 4 = 0x5#4 → w.extractLsb' 8 4 ≠ 0#4 →
    cmdWrite w s = .next (failedWith 0b10#2 s)) ∧
  (∀ c : WfConfig, ipInvPerm c 0x00#8 = 0x00#8 ∧ ipInvPerm c 0xFF#8 = 0xFF#8) ∧
  (∀ (b : Byte) (s : State), ∃ t, exec (.ip b) s = .next t ∧ exec (.ipinv t.dout) t = .next { s with dout := b }) ∧
  (decode 0x505D#16 = .command (.ipinv 0x5D#8) ∧ ipInvPerm .refCfg 0x5D#8 = 0x97#8)

/-- R92, EP. -/
def Obligations.EpExpandsNibble : Prop :=
  (∀ (n : Nibble) (s : State), exec (.ep n) s = .next { s with dout := epExpand n }) ∧
  (∀ (w : Word) (s : State), w &&& 0xFFF0#16 = 0x6000#16 → cmdWrite w s = exec (.ep (w.extractLsb' 0 4)) s) ∧
  (∀ (w : Word) (s : State), w.extractLsb' 12 4 = 0x6#4 → w.extractLsb' 4 8 ≠ 0#8 →
    cmdWrite w s = .next (failedWith 0b10#2 s)) ∧
  (∀ n : Nibble, ones (epExpand n) = 2 * ones n) ∧ epExpand 0x0#4 = 0x00#8 ∧ epExpand 0xF#4 = 0xFF#8 ∧
  (∀ s : State, cmdWrite 0x600A#16 s = .next { s with dout := 0x55#8 })

/-- R93, P4, with the fixed points and the order 3 of the permutation, which R93 marks as its own inference from R87. -/
def Obligations.P4PermutesNibble : Prop :=
  (∀ (n : Nibble) (s : State), exec (.p4 n) s = .next { s with dout := 0b0000#4 ++ p4Perm n }) ∧
  (∀ (w : Word) (s : State), w &&& 0xFFF0#16 = 0x7000#16 → cmdWrite w s = exec (.p4 (w.extractLsb' 0 4)) s) ∧
  (∀ (w : Word) (s : State), w.extractLsb' 12 4 = 0x7#4 → w.extractLsb' 4 8 ≠ 0#8 →
    cmdWrite w s = .next (failedWith 0b10#2 s)) ∧
  (∀ n : Nibble, (p4Perm n = n ↔ n ∈ [0b0000#4, 0b0010#4, 0b1101#4, 0b1111#4]) ∧
    (p4Perm n = n ↔ n.getMsbD 0 = n.getMsbD 1 ∧ n.getMsbD 1 = n.getMsbD 3)) ∧
  (∀ n : Nibble, p4Perm (p4Perm (p4Perm n)) = n) ∧ p4Perm 0x0#4 = 0x0#4 ∧ p4Perm 0xF#4 = 0xF#4 ∧
  (∀ s : State, cmdWrite 0x7001#16 s = .next { s with dout := 0x04#8 })

/-- R135, S0. -/
def Obligations.S0LooksUpBox : Prop :=
  (∀ (n : Nibble) (s : State), exec (.s0 n) s = .next { s with
    dout := BitVec.ofNat 8 ([1, 3, 0, 2, 3, 1, 2, 0, 0, 3, 2, 1, 1, 3, 3, 2].getD n.toNat 0) }) ∧
  (∀ (w : Word) (s : State), w &&& 0xFFF0#16 = 0x8000#16 → cmdWrite w s = exec (.s0 (w.extractLsb' 0 4)) s) ∧
  (∀ (w : Word) (s : State), w.extractLsb' 12 4 = 0x8#4 → w.extractLsb' 4 8 ≠ 0#8 →
    cmdWrite w s = .next (failedWith 0b10#2 s)) ∧
  (∀ s : State, cmdWrite 0x800B#16 s = .next { s with dout := 0x01#8 })

/-- R136, S1. -/
def Obligations.S1LooksUpBox : Prop :=
  (∀ (n : Nibble) (s : State), exec (.s1 n) s = .next { s with
    dout := BitVec.ofNat 8 ([0, 2, 1, 0, 2, 1, 3, 3, 3, 2, 0, 1, 1, 0, 0, 3].getD n.toNat 0) }) ∧
  (∀ (w : Word) (s : State), w &&& 0xFFF0#16 = 0x9000#16 → cmdWrite w s = exec (.s1 (w.extractLsb' 0 4)) s) ∧
  (∀ (w : Word) (s : State), w.extractLsb' 12 4 = 0x9#4 → w.extractLsb' 4 8 ≠ 0#8 →
    cmdWrite w s = .next (failedWith 0b10#2 s)) ∧
  (∀ s : State, cmdWrite 0x9000#16 s = .next { s with dout := 0x00#8 } ∧
    cmdWrite 0x900F#16 s = .next { s with dout := 0x03#8 } ∧ cmdWrite 0x9008#16 s = .next { s with dout := 0x03#8 })

/-- R113, SK1, with the all-zero and all-one keys, which R113 marks as its own inference from R110. -/
def Obligations.Sk1ReadsSubkey : Prop :=
  (∀ s : State, s.kv = true → exec .sk1 s = .next { s with dout := subkey1 Config.engine s.key }) ∧
  (∀ s : State, s.kv = false → exec .sk1 s = .next (failedWith 0b11#2 s)) ∧
  (∀ s : State, cmdWrite 0xA000#16 s = exec .sk1 s) ∧
  (∀ (w : Word) (s : State), w.extractLsb' 12 4 = 0xA#4 → w.extractLsb' 0 12 ≠ 0#12 →
    cmdWrite w s = .next (failedWith 0b10#2 s)) ∧
  (∀ c : WfConfig, subkey1 c 0b0000000000#10 = 0x00#8 ∧ subkey1 c 0b1111111111#10 = 0xFF#8) ∧
  subkey1 .refCfg 0b1010000010#10 = 0xA4#8

/-- R114, SK2, with the all-zero and all-one keys (the inference R113 marks as its own). -/
def Obligations.Sk2ReadsSubkey : Prop :=
  (∀ s : State, s.kv = true → exec .sk2 s = .next { s with dout := subkey2 Config.engine s.key }) ∧
  (∀ s : State, s.kv = false → exec .sk2 s = .next (failedWith 0b11#2 s)) ∧
  (∀ s : State, cmdWrite 0xB000#16 s = exec .sk2 s) ∧
  (∀ (w : Word) (s : State), w.extractLsb' 12 4 = 0xB#4 → w.extractLsb' 0 12 ≠ 0#12 →
    cmdWrite w s = .next (failedWith 0b10#2 s)) ∧
  (∀ c : WfConfig, subkey2 c 0b0000000000#10 = 0x00#8 ∧ subkey2 c 0b1111111111#10 = 0xFF#8) ∧
  subkey2 .refCfg 0b1010000010#10 = 0x43#8

/-- R152, FK1. -/
def Obligations.Fk1RunsOneRound : Prop :=
  (∀ (b : Byte) (s : State), s.kv = true →
    exec (.fk1 b) s = .next { s with dout := roundF b (subkey1 Config.engine s.key) }) ∧
  (∀ (b : Byte) (s : State), s.kv = false → exec (.fk1 b) s = .next (failedWith 0b11#2 s)) ∧
  (∀ (w : Word) (s : State), w &&& 0xFF00#16 = 0xC000#16 → cmdWrite w s = exec (.fk1 (w.extractLsb' 0 8)) s) ∧
  (∀ (w : Word) (s : State), w.extractLsb' 12 4 = 0xC#4 → w.extractLsb' 8 4 ≠ 0#4 →
    cmdWrite w s = .next (failedWith 0b10#2 s)) ∧
  (∀ (b : Byte) (s : State), s.kv = true → ∃ t, exec (.fk1 b) s = .next t ∧
    t.dout.extractLsb' 0 4 = b.extractLsb' 0 4 ∧ exec (.fk1 t.dout) t = .next { s with dout := b }) ∧
  (decode 0xC05D#16 = .command (.fk1 0x5D#8) ∧ roundF 0x5D#8 (subkey1 .refCfg 0b1010000010#10) = 0xAD#8)

/-- R153, FK2. -/
def Obligations.Fk2RunsOneRound : Prop :=
  (∀ (b : Byte) (s : State), s.kv = true →
    exec (.fk2 b) s = .next { s with dout := roundF b (subkey2 Config.engine s.key) }) ∧
  (∀ (b : Byte) (s : State), s.kv = false → exec (.fk2 b) s = .next (failedWith 0b11#2 s)) ∧
  (∀ (w : Word) (s : State), w &&& 0xFF00#16 = 0xD000#16 → cmdWrite w s = exec (.fk2 (w.extractLsb' 0 8)) s) ∧
  (∀ (w : Word) (s : State), w.extractLsb' 12 4 = 0xD#4 → w.extractLsb' 8 4 ≠ 0#4 →
    cmdWrite w s = .next (failedWith 0b10#2 s)) ∧
  (∀ (b : Byte) (s : State), s.kv = true → ∃ t, exec (.fk2 b) s = .next t ∧
    t.dout.extractLsb' 0 4 = b.extractLsb' 0 4 ∧ exec (.fk2 t.dout) t = .next { s with dout := b }) ∧
  (decode 0xD0DA#16 = .command (.fk2 0xDA#8) ∧ roundF 0xDA#8 (subkey2 .refCfg 0b1010000010#10) = 0x2A#8)

/-- "After an LDKEY, the very next command sees the subkeys of the new key" (an inference that R111 marks as its own): each
command that uses a subkey, right after an LDKEY, whatever key was loaded before. -/
def Obligations.NewKeySeenByNextCommand : Prop :=
  ∀ (k : Key) (b : Byte) (s : State), ∃ t, exec (.ldkey k) s = .next t ∧
    exec .sk1 t = .next { t with dout := subkey1 Config.engine k } ∧
    exec .sk2 t = .next { t with dout := subkey2 Config.engine k } ∧
    exec (.enc b) t = .next { t with dout := encryptByte Config.engine k b } ∧
    exec (.dec b) t = .next { t with dout := decryptByte Config.engine k b } ∧
    exec (.fk1 b) t = .next { t with dout := roundF b (subkey1 Config.engine k) } ∧
    exec (.fk2 b) t = .next { t with dout := roundF b (subkey2 Config.engine k) }

/-! ### Whole-machine rules -/

/-- R26, R27, R199: once a command has failed, ERR stays 1 and ECODE keeps the first code through any run without a reset. -/
def Obligations.FirstErrorKeptUntilReset : Prop :=
  ∀ (n : Nat) (s : State), s.err = true → HostAccess.reset ∉ s.pending →
    ∃ t : State, Host.Core.run core n s = .next t ∧ t.err = true ∧ t.ecode = s.ecode

/-- R25: only LDKEY sets KV, and only a reset clears it. -/
def Obligations.KvSetByLdkeyClearedByReset : Prop :=
  ∀ (a : HostAccess) (s t : State), hostDoes a s = .next t →
    (s.kv = true → t.kv = false → a = .reset) ∧
    (s.kv = false → t.kv = true → ∃ w k, a = .write 0#2 w ∧ decode w = .command (.ldkey k) ∧ t.key = k)

/-- R22: only LDKEY (and a reset, which leaves KEY unspecified) changes KEY. -/
def Obligations.KeyWrittenOnlyByLdkey : Prop :=
  ∀ (a : HostAccess) (s t : State), hostDoes a s = .next t → t.key ≠ s.key →
    a = .reset ∨ ∃ w k, a = .write 0#2 w ∧ decode w = .command (.ldkey k) ∧ t.key = k ∧ t.kv = true

/-- R23, R223: DOUT changes only by a reset or by a successful command other than LDKEY; every such command writes DOUT
and leaves KEY, KV, ERR and ECODE alone. -/
def Obligations.DoutWrittenOnlyBySuccess : Prop :=
  ∀ (a : HostAccess) (s t : State), hostDoes a s = .next t → t.dout ≠ s.dout →
    (a = .reset ∧ t.dout = 0x00#8) ∨
    ∃ w i, a = .write 0#2 w ∧ decode w = .command i ∧ (∀ k, i ≠ .ldkey k) ∧ (i.needsKey = true → s.kv = true) ∧
      t = { s with dout := t.dout }

/-- R24, R41: the legal states (ECODE = 00 exactly when ERR = 0, and read values with upper byte 0) are kept by every
step, from any legal state. -/
def Obligations.StepKeepsLegal : Prop := ∀ s t : State, Legal s → step s = .next t → Legal t

/-- The state at power-on is legal. -/
def Obligations.ResetIsLegal : Prop := Legal State.reset

/-- R22, "the unspecified value is never observed": two machines that differ only in a KEY not loaded (KV = 0) go through
the same states but for KEY, for any number of steps and any accesses of the host, and agree on KEY once KV = 1. -/
def Obligations.UnloadedKeyNeverObserved : Prop :=
  ∀ (n : Nat) (s : State) (k : Key), s.kv = false →
    ∃ t u : State, Host.Core.run core n s = .next t ∧ Host.Core.run core n { s with key := k } = .next u ∧
      u = { t with key := u.key } ∧ (t.kv = true → u.key = t.key)

/-- R30: the open tables bear on DOUT alone. Under any two well-formed configurations a step leaves the same state but for
DOUT. -/
def Obligations.TablesAffectOnlyDout : Prop :=
  ∀ (c d : WfConfig) (s : State), ∃ t u, stepIn c s = .next t ∧ stepIn d s = .next u ∧ u = { t with dout := u.dout }

/-- The model's choice, no rule of the spec (log entries 1, DESIGN CHOICE, and 8, DEDUCED): the engine's step is the
configured machine at one open configuration, which passes every check, so `stepUnder` never refuses it. R6 leaves the tables
open, and R88 refuses the configurations that fail a check. -/
def Obligations.StepIsConfiguredMachine : Prop :=
  ∀ s : State, step s = stepIn Config.engine s ∧ stepUnder Config.engine.raw s = step s

/-- R88: the named checks are the spec's conditions; a configuration that passes all of them runs, one that fails is refused
by the name of a check it fails; the fixed tables pass the same kind of checks. -/
def Obligations.BadConfigurationRefused : Prop :=
  (∀ c : SdesConfig,
    (c.passes .wfIpLen = true ↔ c.pIp.length = 8) ∧
    (c.passes .wfIpRange = true ↔ ∀ x ∈ c.pIp, x ≤ 7) ∧
    (c.passes .wfIpPerm = true ↔ c.pIp.Pairwise (· ≠ ·)) ∧
    (c.passes .wfIpInvLen = true ↔ c.pIpInv.length = 8) ∧
    (c.passes .wfIpInvRange = true ↔ ∀ x ∈ c.pIpInv, x ≤ 7) ∧
    (c.passes .wfIpInvInverse = true ↔ ∀ i ≤ 7, ∃ j, c.pIpInv[i]? = some j ∧ c.pIp[j]? = some i) ∧
    (c.passes .wfEpv1Len = true ↔ c.pEpv1.length = 8) ∧
    (c.passes .wfEpv1Range = true ↔ ∀ x ∈ c.pEpv1, x ≤ 9) ∧
    (c.passes .wfEpv2Len = true ↔ c.pEpv2.length = 8) ∧
    (c.passes .wfEpv2Range = true ↔ ∀ x ∈ c.pEpv2, x ≤ 9)) ∧
  (∀ (c : SdesConfig) (s : State),
    ((∀ k, c.passes k = true) → ∃ t, stepUnder c s = .next t) ∧
    (¬(∀ k, c.passes k = true) → ∃ k, c.passes k = false ∧ stepUnder c s = .refused (.badConfig k))) ∧
  (epTable.toList.length = 8 ∧ (∀ x ∈ epTable.toList, x.val ≤ 3) ∧ p4Table.toList.length = 4 ∧
    (∀ x ∈ p4Table.toList, x.val ≤ 3) ∧ p4Table.toList.Nodup)

/-! ### The primitives and the cipher's functions -/

/-- R84, R85, R12: val is the big-endian sum, `byteToBits` puts integer bit `j` at element `size-1-j`, and the two
conversions are inverse. -/
def Obligations.BitsAndBytesConvert : Prop :=
  (∀ (n : Nat) (v : Bits n),
    bitsToByte v = ((List.range n).map fun i => 2 ^ (n - 1 - i) * (v.getMsbD i).toNat).sum) ∧
  (∀ (size b : Nat) (h : b < 2 ^ size), bitsToByte (byteToBits size b h) = b ∧
    ∀ j : Fin size, (byteToBits size b h).getMsbD (size - 1 - j.val) = b.testBit j.val) ∧
  (∀ (n : Nat) (v : Bits n) (h : bitsToByte v < 2 ^ n), byteToBits n (bitsToByte v) h = v)

/-- R80: element `i` of `permuteSelect(v, T)` is `v⟨T[i]⟩`. -/
def Obligations.PermuteSelectElements : Prop :=
  ∀ (n m : Nat) (v : Bits n) (T : Vector (Fin n) m) (i : Fin m),
    (permuteSelect v T).getMsbD i.val = v.getMsbD (T.get i).val

/-- R86: IP and IP⁻¹ select through the open tables. -/
def Obligations.IpSelectsThroughTables : Prop :=
  (∀ (c : WfConfig) (x : Byte) (i : Fin 8),
    (ipPerm c x).getMsbD i.val = x.getMsbD (c.raw.pIp.getD i.val 8) ∧
    (ipInvPerm c x).getMsbD i.val = x.getMsbD (c.raw.pIpInv.getD i.val 8)) ∧
  (∀ (x : Byte) (i : Fin 8),
    (ipPerm .refCfg x).getMsbD i.val = [x.getMsbD 1, x.getMsbD 5, x.getMsbD 2, x.getMsbD 0, x.getMsbD 3, x.getMsbD 7,
      x.getMsbD 4, x.getMsbD 6].getD i.val false)

/-- R87: EP and P4, element by element. -/
def Obligations.EpAndP4Elements : Prop :=
  (∀ (r : Nibble) (i : Fin 8),
    (epExpand r).getMsbD i.val = [r.getMsbD 3, r.getMsbD 0, r.getMsbD 1, r.getMsbD 2, r.getMsbD 1, r.getMsbD 2,
      r.getMsbD 3, r.getMsbD 0].getD i.val false) ∧
  (∀ (p : Nibble) (i : Fin 4),
    (p4Perm p).getMsbD i.val = [p.getMsbD 1, p.getMsbD 3, p.getMsbD 2, p.getMsbD 0].getD i.val false) ∧
  (∀ j : Fin 4, epTable.toList.count j = 2)

/-- R89 (an inference the spec marks as its own): under a well-formed configuration IP and IP⁻¹ undo each other and keep the number of ones. -/
def Obligations.IpAndIpInvAreInverse : Prop :=
  ∀ (c : WfConfig) (x : Byte),
    ipInvPerm c (ipPerm c x) = x ∧ ipPerm c (ipInvPerm c x) = x ∧
    ones (ipPerm c x) = ones x ∧ ones (ipInvPerm c x) = ones x ∧
    ipPerm c 0b00000000#8 = 0b00000000#8 ∧ ipPerm c 0b11111111#8 = 0b11111111#8

/-- R110: the subkeys select through the open tables. -/
def Obligations.SubkeysSelectKeyBits : Prop :=
  ∀ (c : WfConfig) (key : Key) (i : Fin 8),
    (subkey1 c key).getMsbD i.val = key.getMsbD (c.raw.pEpv1.getD i.val 10) ∧
    (subkey2 c key).getMsbD i.val = key.getMsbD (c.raw.pEpv2.getD i.val 10)

/-- R132, R133: the S-boxes as the spec lists them, the index big-endian (R130). -/
def Obligations.SboxesAreTheLists : Prop :=
  ∀ a : Nibble,
    let i := 8 * (a.getMsbD 0).toNat + 4 * (a.getMsbD 1).toNat + 2 * (a.getMsbD 2).toNat + (a.getMsbD 3).toNat
    (sbox0 a).toNat = [1, 3, 0, 2, 3, 1, 2, 0, 0, 3, 2, 1, 1, 3, 3, 2].getD i 4 ∧
    (sbox1 a).toNat = [0, 2, 1, 0, 2, 1, 3, 3, 3, 2, 0, 1, 1, 0, 0, 3].getD i 4

/-- R134 (an inference the spec marks as its own): how often each S-box gives the outputs 0, 1, 2, 3. -/
def Obligations.SboxOutputCounts : Prop :=
  ((List.range 4).map fun o => (List.range 16).countP fun n => (sbox0 (BitVec.ofNat 4 n)).toNat == o) = [3, 4, 4, 5] ∧
  ((List.range 4).map fun o => (List.range 16).countP fun n => (sbox1 (BitVec.ofNat 4 n)).toNat == o) = [5, 4, 3, 4]

/-- R150: F computed element by element from the literal tables, without the model's own helper functions. -/
def Obligations.RoundFunctionElements : Prop :=
  ∀ blk sk : Byte,
    let x : Nat → Bool := fun i => xor (blk.getMsbD (4 + [3, 0, 1, 2, 1, 2, 3, 0].getD i 0)) (sk.getMsbD i)
    let index : Nat → Nat := fun j =>
      8 * (x j).toNat + 4 * (x (j + 1)).toNat + 2 * (x (j + 2)).toNat + (x (j + 3)).toNat
    let sl := [1, 3, 0, 2, 3, 1, 2, 0, 0, 3, 2, 1, 1, 3, 3, 2].getD (index 0) 0
    let sr := [0, 2, 1, 0, 2, 1, 3, 3, 3, 2, 0, 1, 1, 0, 0, 3].getD (index 4) 0
    let p : List Bool := [sl.testBit 1, sl.testBit 0, sr.testBit 1, sr.testBit 0]
    ∀ i : Fin 4,
      (roundF blk sk).getMsbD i.val = xor (p.getD ([1, 3, 2, 0].getD i.val 0) false) (blk.getMsbD i.val) ∧
      (roundF blk sk).getMsbD (4 + i.val) = blk.getMsbD (4 + i.val)

/-- R151 (an inference the spec marks as its own): F keeps the right half, is an involution for a fixed subkey, and changes the left half by a value that depends
on the right half and the subkey only. -/
def Obligations.RoundFunctionLaws : Prop :=
  (∀ blk sk : Byte, rightHalf (roundF blk sk) = rightHalf blk) ∧
  (∀ blk sk : Byte, roundF (roundF blk sk) sk = blk) ∧
  (∀ blk sk : Byte, leftHalf (roundF blk sk) ^^^ leftHalf blk = roundZ (rightHalf blk) sk)

/-- R170: the half-swap, an involution (which R170 marks as its own inference from R81). -/
def Obligations.SwapExchangesHalves : Prop :=
  ∀ v : Byte, swapHalves v = rightHalf v ++ leftHalf v ∧ swapHalves (swapHalves v) = v ∧
    ∀ i : Fin 8, (swapHalves v).getMsbD i.val = v.getMsbD ((i.val + 4) % 8)

/-- R171, R172: the pipeline's steps in order, and decryption as the same pipeline with the subkeys exchanged. -/
def Obligations.PipelineSteps : Prop :=
  ∀ (c : WfConfig) (x ka kb : Byte) (key : Key),
    pipe c x ka kb =
      (let ip := ipPerm c x
       let r1 := roundF ip ka
       let swapped : Byte := rightHalf r1 ++ leftHalf r1
       let r2 := roundF swapped kb
       ipInvPerm c r2) ∧
    encryptByte c key x = pipe c x (subkey1 c key) (subkey2 c key) ∧
    decryptByte c key x = pipe c x (subkey2 c key) (subkey1 c key)

/-- R173 (a) to (e) (inferences the spec marks as its own), for every well-formed configuration and key. -/
def Obligations.PipelineLaws : Prop :=
  ∀ (c : WfConfig) (key : Key),
    (∀ x : Byte, decryptByte c key (encryptByte c key x) = x ∧ encryptByte c key (decryptByte c key x) = x) ∧
    (∀ (b : Byte) (s t : State), s.kv = true → t.kv = true → s.key = key → t.key = key →
      execIn c (.enc b) s = .next { s with dout := encryptByte c key b } ∧
      execIn c (.enc b) t = .next { t with dout := encryptByte c key b }) ∧
    Function.Bijective (encryptByte c key) ∧
    (subkey1 c key = subkey2 c key → ∀ x : Byte, encryptByte c key x = decryptByte c key x ∧
      encryptByte c key (encryptByte c key x) = x) ∧
    (∀ x : Byte, encryptByte c 0b0000000000#10 x = decryptByte c 0b0000000000#10 x ∧
      encryptByte c 0b1111111111#10 x = decryptByte c 0b1111111111#10 x) ∧
    (∀ x ka kb : Byte, pipe c x ka kb = ipInvPerm c (roundF (swapHalves (roundF (ipPerm c x) ka)) kb))

/-- R173 (a) on the machine: with a key loaded, ENC then DEC of the result, and DEC then ENC of the result, leave the byte
in DOUT and nothing else changed, under every well-formed configuration. -/
def Obligations.EncDecRoundTripOnMachine : Prop :=
  ∀ (c : WfConfig) (b : Byte) (s : State), s.kv = true →
    (∃ t, execIn c (.enc b) s = .next t ∧ execIn c (.dec t.dout) t = .next { s with dout := b }) ∧
    (∃ t, execIn c (.dec b) s = .next t ∧ execIn c (.enc t.dout) t = .next { s with dout := b })

/-- R178, R45, R177: with a key loaded, ENCMSG of any message returns, byte by byte and in order, the encryption of each byte,
and changes no register but DOUT; equal bytes give equal replies. -/
def Obligations.EncmsgEncryptsMessage : Prop :=
  ∀ (m : List Byte) (rest : List HostAccess) (s : State), s.kv = true →
    ∃ t : State, Host.Core.run core (2 * m.length) { s with pending := encMsg m ++ rest } = .next t ∧
      t.replies = s.replies ++ m.map (fun b => 0#8 ++ encryptByte Config.engine s.key b) ∧
      t = { s with dout := t.dout, replies := t.replies, pending := rest }

/-- R178, R173 (a): DECMSG of the ciphertext of any message returns the message. -/
def Obligations.MessageRoundTrip : Prop :=
  ∀ (m : List Byte) (rest : List HostAccess) (s : State), s.kv = true →
    let cs := m.map (encryptByte Config.engine s.key)
    ∃ t : State, Host.Core.run core (4 * m.length) { s with pending := encMsg m ++ (decMsg cs ++ rest) } = .next t ∧
      t.replies = s.replies ++ cs.map (fun b => 0#8 ++ b) ++ m.map (fun b => 0#8 ++ b) ∧
      t = { s with dout := t.dout, replies := t.replies, pending := rest }

/-- R70: every command mnemonic that takes an operand, with the operand in binary, first digit at index 0, with or without
a comment after it (the lexical details: log entry 13). -/
def Obligations.BinaryOperandsAssemble : Prop :=
  (∀ k : Key, assemblesTo ("LDKEY 0b".toList ++ binaryDigits k) (.ldkey k)) ∧
  (∀ b : Byte, ∀ p ∈ [("ENC", Instr.enc), ("DEC", .dec), ("IP", .ip), ("IPINV", .ipinv), ("FK1", .fk1), ("FK2", .fk2)],
    assemblesTo (p.1.toList ++ " 0b".toList ++ binaryDigits b) (p.2 b)) ∧
  (∀ n : Nibble, ∀ p ∈ [("EP", Instr.ep), ("P4", .p4), ("S0", .s0), ("S1", .s1)],
    assemblesTo (p.1.toList ++ " 0b".toList ++ binaryDigits n) (p.2 n))
end

