-- ==== Sys2Proof/Laws/Assembler.lean ====
section
/-! SUPPORT. A comment is not part of a line: the tokens, and so the accesses, are those of the text before the semicolon
(30_encoding.md R70). -/

namespace Sys2Proof.Machine

theorem tokenize_comment (line comment : List Char) (cur : Token) :
    tokenize (line ++ ';' :: comment) cur = tokenize line cur := by
  induction line generalizing cur with
  | nil => rfl
  | cons c cs ih => simp only [List.cons_append, tokenize, ih]

theorem assembleLine_comment (line comment : List Char) :
    assembleLine (line ++ ';' :: comment) = assembleLine line := by
  simp only [assembleLine, tokenize_comment]

end Sys2Proof.Machine
end

