-- ==== Sys2Proof/Laws/Bits.lean ====
section
/-! SUPPORT. The elements of the vectors that the primitives build. -/

namespace Sys2Proof.Machine

/-- Element `i` of the vector made from `f` is `f i`. -/
theorem getMsbD_bitsOfFn {m : Nat} (f : Fin m → Bool) (i : Nat) (h : i < m) :
    (bitsOfFn m f).getMsbD i = f ⟨i, h⟩ := by
  induction m with
  | zero => omega
  | succ m ih =>
    rw [bitsOfFn, BitVec.getMsbD_concat]
    by_cases hi : i < m
    · simp [hi, ih]
    · obtain rfl : i = m := by omega
      simp [Fin.last]

/-- Two vectors with the same elements are equal. -/
theorem eq_of_elements {n : Nat} {v u : Bits n} (h : ∀ i < n, v.getMsbD i = u.getMsbD i) : v = u :=
  BitVec.eq_of_getMsbD_eq h

theorem leftHalf_append (a b : Nibble) : leftHalf (a ++ b) = a := by
  revert a b; decide +kernel

theorem rightHalf_append (a b : Nibble) : rightHalf (a ++ b) = b := by
  revert a b; decide +kernel

theorem halves_append (v : Byte) : leftHalf v ++ rightHalf v = v := by
  revert v; decide +kernel

@[simp] theorem zext8_byte (v : Byte) : zext8 v = v := BitVec.setWidth_eq v

/-- An entry of a table is the entry of the list it was made from. -/
theorem get_tableOf (n m : Nat) (T : List Nat) (hlen : T.length = m) (hrange : ∀ x ∈ T, x < n) (i : Fin m) :
    ((tableOf n m T hlen hrange).get i).val = T[i.val]'(by rw [hlen]; exact i.isLt) := by
  simp only [tableOf, Vector.get, List.getElem_toArray, List.getElem_map, List.getElem_attach]
  rfl

end Sys2Proof.Machine

namespace Sys2Proof

theorem WfConfig.pIp_length (c : WfConfig) : c.raw.pIp.length = 8 := by
  simpa [SdesConfig.passes] using c.raw.passes_of_wellFormed c.ok .wfIpLen
theorem WfConfig.pIp_lt (c : WfConfig) : ∀ x ∈ c.raw.pIp, x < 8 := by
  simpa [SdesConfig.passes] using c.raw.passes_of_wellFormed c.ok .wfIpRange
theorem WfConfig.pIp_nodup (c : WfConfig) : c.raw.pIp.Nodup := by
  simpa [SdesConfig.passes] using c.raw.passes_of_wellFormed c.ok .wfIpPerm
theorem WfConfig.pIpInv_length (c : WfConfig) : c.raw.pIpInv.length = 8 := by
  simpa [SdesConfig.passes] using c.raw.passes_of_wellFormed c.ok .wfIpInvLen
theorem WfConfig.pIpInv_lt (c : WfConfig) : ∀ x ∈ c.raw.pIpInv, x < 8 := by
  simpa [SdesConfig.passes] using c.raw.passes_of_wellFormed c.ok .wfIpInvRange
theorem WfConfig.pEpv1_length (c : WfConfig) : c.raw.pEpv1.length = 8 := by
  simpa [SdesConfig.passes] using c.raw.passes_of_wellFormed c.ok .wfEpv1Len
theorem WfConfig.pEpv1_lt (c : WfConfig) : ∀ x ∈ c.raw.pEpv1, x < 10 := by
  simpa [SdesConfig.passes] using c.raw.passes_of_wellFormed c.ok .wfEpv1Range
theorem WfConfig.pEpv2_length (c : WfConfig) : c.raw.pEpv2.length = 8 := by
  simpa [SdesConfig.passes] using c.raw.passes_of_wellFormed c.ok .wfEpv2Len
theorem WfConfig.pEpv2_lt (c : WfConfig) : ∀ x ∈ c.raw.pEpv2, x < 10 := by
  simpa [SdesConfig.passes] using c.raw.passes_of_wellFormed c.ok .wfEpv2Range

/-- `P_IP[P_IPINV[i]] = i` (R88, WF_IPINV_INVERSE). -/
theorem WfConfig.pIp_pIpInv (c : WfConfig) (i : Nat) (h : i < 8) :
    (c.raw.pIpInv[i]?.bind fun j => c.raw.pIp[j]?) = some i := by
  have hi := c.raw.passes_of_wellFormed c.ok .wfIpInvInverse
  simp only [SdesConfig.passes, List.all_eq_true, List.mem_range, beq_iff_eq] at hi
  exact hi i h

end Sys2Proof
end

