-- ==== Sys2Proof/Laws/Decode.lean ====
section
/-! SUPPORT. What a word that decodes to a given command looks like, field by field, and when a word is rejected. -/

namespace Sys2Proof

/-- The fields of a word that stands for a command: its opcode, its reserved field zero, its operand (R61 to R66). -/
def WordFits (w : Word) : Instr → Prop
  | .ldkey k => opField w = 0x1#4 ∧ w.extractLsb' 10 2 = 0#2 ∧ w.extractLsb' 0 10 = k
  | .enc b => opField w = 0x2#4 ∧ w.extractLsb' 8 4 = 0#4 ∧ w.extractLsb' 0 8 = b
  | .dec b => opField w = 0x3#4 ∧ w.extractLsb' 8 4 = 0#4 ∧ w.extractLsb' 0 8 = b
  | .ip b => opField w = 0x4#4 ∧ w.extractLsb' 8 4 = 0#4 ∧ w.extractLsb' 0 8 = b
  | .ipinv b => opField w = 0x5#4 ∧ w.extractLsb' 8 4 = 0#4 ∧ w.extractLsb' 0 8 = b
  | .ep n => opField w = 0x6#4 ∧ w.extractLsb' 4 8 = 0#8 ∧ w.extractLsb' 0 4 = n
  | .p4 n => opField w = 0x7#4 ∧ w.extractLsb' 4 8 = 0#8 ∧ w.extractLsb' 0 4 = n
  | .s0 n => opField w = 0x8#4 ∧ w.extractLsb' 4 8 = 0#8 ∧ w.extractLsb' 0 4 = n
  | .s1 n => opField w = 0x9#4 ∧ w.extractLsb' 4 8 = 0#8 ∧ w.extractLsb' 0 4 = n
  | .sk1 => opField w = 0xA#4 ∧ w.extractLsb' 0 12 = 0#12
  | .sk2 => opField w = 0xB#4 ∧ w.extractLsb' 0 12 = 0#12
  | .fk1 b => opField w = 0xC#4 ∧ w.extractLsb' 8 4 = 0#4 ∧ w.extractLsb' 0 8 = b
  | .fk2 b => opField w = 0xD#4 ∧ w.extractLsb' 8 4 = 0#4 ∧ w.extractLsb' 0 8 = b

theorem decodeFK_command {mk : Key → Instr} {w : Word} {i : Instr} (h : decodeFK mk w = .command i) :
    w.extractLsb' 10 2 = 0#2 ∧ i = mk (w.extractLsb' 0 10) := by
  unfold decodeFK at h
  split at h
  · injection h with h; exact ⟨‹_›, h.symm⟩
  · cases h

theorem decodeFB_command {mk : Byte → Instr} {w : Word} {i : Instr} (h : decodeFB mk w = .command i) :
    w.extractLsb' 8 4 = 0#4 ∧ i = mk (w.extractLsb' 0 8) := by
  unfold decodeFB at h
  split at h
  · injection h with h; exact ⟨‹_›, h.symm⟩
  · cases h

theorem decodeFN_command {mk : Nibble → Instr} {w : Word} {i : Instr} (h : decodeFN mk w = .command i) :
    w.extractLsb' 4 8 = 0#8 ∧ i = mk (w.extractLsb' 0 4) := by
  unfold decodeFN at h
  split at h
  · injection h with h; exact ⟨‹_›, h.symm⟩
  · cases h

theorem decodeFZ_command {j : Instr} {w : Word} {i : Instr} (h : decodeFZ j w = .command i) :
    w.extractLsb' 0 12 = 0#12 ∧ i = j := by
  unfold decodeFZ at h
  split at h
  · injection h with h; exact ⟨‹_›, h.symm⟩
  · cases h

/-- A word decodes to a command exactly when its fields are that command's. -/
theorem decode_eq_command_iff (w : Word) (i : Instr) : decode w = .command i ↔ WordFits w i := by
  constructor
  · intro h
    unfold decode at h
    split at h <;> rename_i hop
    case h_1 => obtain ⟨hr, rfl⟩ := decodeFK_command h; exact ⟨BitVec.eq_of_toNat_eq hop, hr, rfl⟩
    case h_14 => cases h
    case h_10 => obtain ⟨hr, rfl⟩ := decodeFZ_command h; exact ⟨BitVec.eq_of_toNat_eq hop, hr⟩
    case h_11 => obtain ⟨hr, rfl⟩ := decodeFZ_command h; exact ⟨BitVec.eq_of_toNat_eq hop, hr⟩
    case h_6 => obtain ⟨hr, rfl⟩ := decodeFN_command h; exact ⟨BitVec.eq_of_toNat_eq hop, hr, rfl⟩
    case h_7 => obtain ⟨hr, rfl⟩ := decodeFN_command h; exact ⟨BitVec.eq_of_toNat_eq hop, hr, rfl⟩
    case h_8 => obtain ⟨hr, rfl⟩ := decodeFN_command h; exact ⟨BitVec.eq_of_toNat_eq hop, hr, rfl⟩
    case h_9 => obtain ⟨hr, rfl⟩ := decodeFN_command h; exact ⟨BitVec.eq_of_toNat_eq hop, hr, rfl⟩
    all_goals obtain ⟨hr, rfl⟩ := decodeFB_command h; exact ⟨BitVec.eq_of_toNat_eq hop, hr, rfl⟩
  · intro h
    cases i with
    | sk1 => obtain ⟨ho, hr⟩ := h; simp [decode, ho, decodeFZ, hr]
    | sk2 => obtain ⟨ho, hr⟩ := h; simp [decode, ho, decodeFZ, hr]
    | ldkey k => obtain ⟨ho, hr, hv⟩ := h; simp [decode, ho, decodeFK, hr, hv]
    | ep n => obtain ⟨ho, hr, hv⟩ := h; simp [decode, ho, decodeFN, hr, hv]
    | p4 n => obtain ⟨ho, hr, hv⟩ := h; simp [decode, ho, decodeFN, hr, hv]
    | s0 n => obtain ⟨ho, hr, hv⟩ := h; simp [decode, ho, decodeFN, hr, hv]
    | s1 n => obtain ⟨ho, hr, hv⟩ := h; simp [decode, ho, decodeFN, hr, hv]
    | enc b => obtain ⟨ho, hr, hv⟩ := h; simp [decode, ho, decodeFB, hr, hv]
    | dec b => obtain ⟨ho, hr, hv⟩ := h; simp [decode, ho, decodeFB, hr, hv]
    | ip b => obtain ⟨ho, hr, hv⟩ := h; simp [decode, ho, decodeFB, hr, hv]
    | ipinv b => obtain ⟨ho, hr, hv⟩ := h; simp [decode, ho, decodeFB, hr, hv]
    | fk1 b => obtain ⟨ho, hr, hv⟩ := h; simp [decode, ho, decodeFB, hr, hv]
    | fk2 b => obtain ⟨ho, hr, hv⟩ := h; simp [decode, ho, decodeFB, hr, hv]

/-- A word is its opcode followed by its twelve low bits. -/
theorem word_eq_opField_append (w : Word) : w = opField w ++ w.extractLsb' 0 12 := by
  apply BitVec.eq_of_toNat_eq
  have := w.isLt
  simp only [opField, BitVec.toNat_append, BitVec.extractLsb'_toNat, Nat.shiftRight_eq_div_pow]
  rw [← Nat.shiftLeft_add_eq_or_of_lt (by omega), Nat.shiftLeft_eq]
  omega

end Sys2Proof
end

