-- ==== Sys2Proof/Laws/PerInstr.lean ====
section
/-! SUPPORT. Families of facts about a command as syntax, one lemma per constructor of `Instr`. -/

namespace Sys2Proof.Laws.EncodesRow

-- One declaration at a time: waiting checks each hold a thread's stack, and together they pass the data limit.
set_option Elab.async false

/-- The word of a command matches its row of the opcode map: `w & mask = match` (30_encoding.md R66). -/
def Statement (i : Instr) : Prop := encode i &&& i.rowMask = i.rowMatch

theorem ldkey (k : Key) : Statement (.ldkey k) := by
  simp only [Statement, encode, Instr.rowMask, Instr.rowMatch]; revert k; decide +kernel
theorem enc (b : Byte) : Statement (.enc b) := by
  simp only [Statement, encode, Instr.rowMask, Instr.rowMatch]; revert b; decide +kernel
theorem dec (b : Byte) : Statement (.dec b) := by
  simp only [Statement, encode, Instr.rowMask, Instr.rowMatch]; revert b; decide +kernel
theorem ip (b : Byte) : Statement (.ip b) := by
  simp only [Statement, encode, Instr.rowMask, Instr.rowMatch]; revert b; decide +kernel
theorem ipinv (b : Byte) : Statement (.ipinv b) := by
  simp only [Statement, encode, Instr.rowMask, Instr.rowMatch]; revert b; decide +kernel
theorem ep (n : Nibble) : Statement (.ep n) := by
  simp only [Statement, encode, Instr.rowMask, Instr.rowMatch]; revert n; decide +kernel
theorem p4 (n : Nibble) : Statement (.p4 n) := by
  simp only [Statement, encode, Instr.rowMask, Instr.rowMatch]; revert n; decide +kernel
theorem s0 (n : Nibble) : Statement (.s0 n) := by
  simp only [Statement, encode, Instr.rowMask, Instr.rowMatch]; revert n; decide +kernel
theorem s1 (n : Nibble) : Statement (.s1 n) := by
  simp only [Statement, encode, Instr.rowMask, Instr.rowMatch]; revert n; decide +kernel
theorem sk1 : Statement .sk1 := by simp only [Statement]; decide
theorem sk2 : Statement .sk2 := by simp only [Statement]; decide
theorem fk1 (b : Byte) : Statement (.fk1 b) := by
  simp only [Statement, encode, Instr.rowMask, Instr.rowMatch]; revert b; decide +kernel
theorem fk2 (b : Byte) : Statement (.fk2 b) := by
  simp only [Statement, encode, Instr.rowMask, Instr.rowMatch]; revert b; decide +kernel

end Sys2Proof.Laws.EncodesRow
end

