-- ==== Sys2Proof/Laws/State.lean ====
section
/-! SUPPORT. One lemma per field and update of State, so that no proof unfolds a record update. -/

namespace Sys2Proof.Machine

@[simp] theorem State.writeResult_key {n : Nat} (r : Bits n) (s : State) : (s.writeResult r).key = s.key := rfl
@[simp] theorem State.writeResult_dout {n : Nat} (r : Bits n) (s : State) : (s.writeResult r).dout = zext8 r := rfl
@[simp] theorem State.writeResult_kv {n : Nat} (r : Bits n) (s : State) : (s.writeResult r).kv = s.kv := rfl
@[simp] theorem State.writeResult_err {n : Nat} (r : Bits n) (s : State) : (s.writeResult r).err = s.err := rfl
@[simp] theorem State.writeResult_ecode {n : Nat} (r : Bits n) (s : State) : (s.writeResult r).ecode = s.ecode := rfl
@[simp] theorem State.writeResult_pending {n : Nat} (r : Bits n) (s : State) : (s.writeResult r).pending = s.pending := rfl
@[simp] theorem State.writeResult_replies {n : Nat} (r : Bits n) (s : State) : (s.writeResult r).replies = s.replies := rfl
@[simp] theorem State.writeResult_resets {n : Nat} (r : Bits n) (s : State) : (s.writeResult r).resets = s.resets := rfl

@[simp] theorem State.loadKey_key (k : Key) (s : State) : (s.loadKey k).key = k := rfl
@[simp] theorem State.loadKey_dout (k : Key) (s : State) : (s.loadKey k).dout = s.dout := rfl
@[simp] theorem State.loadKey_kv (k : Key) (s : State) : (s.loadKey k).kv = true := rfl
@[simp] theorem State.loadKey_err (k : Key) (s : State) : (s.loadKey k).err = s.err := rfl
@[simp] theorem State.loadKey_ecode (k : Key) (s : State) : (s.loadKey k).ecode = s.ecode := rfl
@[simp] theorem State.loadKey_pending (k : Key) (s : State) : (s.loadKey k).pending = s.pending := rfl
@[simp] theorem State.loadKey_replies (k : Key) (s : State) : (s.loadKey k).replies = s.replies := rfl
@[simp] theorem State.loadKey_resets (k : Key) (s : State) : (s.loadKey k).resets = s.resets := rfl

@[simp] theorem State.raiseError_key (e : CmdError) (s : State) : (s.raiseError e).key = s.key := rfl
@[simp] theorem State.raiseError_dout (e : CmdError) (s : State) : (s.raiseError e).dout = s.dout := rfl
@[simp] theorem State.raiseError_kv (e : CmdError) (s : State) : (s.raiseError e).kv = s.kv := rfl
@[simp] theorem State.raiseError_err (e : CmdError) (s : State) : (s.raiseError e).err = true := rfl
@[simp] theorem State.raiseError_ecode (e : CmdError) (s : State) : (s.raiseError e).ecode = nextEcode e s := rfl
@[simp] theorem State.raiseError_pending (e : CmdError) (s : State) : (s.raiseError e).pending = s.pending := rfl
@[simp] theorem State.raiseError_replies (e : CmdError) (s : State) : (s.raiseError e).replies = s.replies := rfl
@[simp] theorem State.raiseError_resets (e : CmdError) (s : State) : (s.raiseError e).resets = s.resets := rfl

@[simp] theorem State.resetEngine_key (s : State) : s.resetEngine.key = Config.unwrittenKey s.resets := rfl
@[simp] theorem State.resetEngine_dout (s : State) : s.resetEngine.dout = 0x00#8 := rfl
@[simp] theorem State.resetEngine_kv (s : State) : s.resetEngine.kv = false := rfl
@[simp] theorem State.resetEngine_err (s : State) : s.resetEngine.err = false := rfl
@[simp] theorem State.resetEngine_ecode (s : State) : s.resetEngine.ecode = 0#2 := rfl
@[simp] theorem State.resetEngine_pending (s : State) : s.resetEngine.pending = s.pending := rfl
@[simp] theorem State.resetEngine_replies (s : State) : s.resetEngine.replies = s.replies := rfl
@[simp] theorem State.resetEngine_resets (s : State) : s.resetEngine.resets = s.resets + 1 := rfl

@[simp] theorem State.setPending_key (l : List HostAccess) (s : State) : (s.setPending l).key = s.key := rfl
@[simp] theorem State.setPending_dout (l : List HostAccess) (s : State) : (s.setPending l).dout = s.dout := rfl
@[simp] theorem State.setPending_kv (l : List HostAccess) (s : State) : (s.setPending l).kv = s.kv := rfl
@[simp] theorem State.setPending_err (l : List HostAccess) (s : State) : (s.setPending l).err = s.err := rfl
@[simp] theorem State.setPending_ecode (l : List HostAccess) (s : State) : (s.setPending l).ecode = s.ecode := rfl
@[simp] theorem State.setPending_pending (l : List HostAccess) (s : State) : (s.setPending l).pending = l := rfl
@[simp] theorem State.setPending_replies (l : List HostAccess) (s : State) : (s.setPending l).replies = s.replies := rfl
@[simp] theorem State.setPending_resets (l : List HostAccess) (s : State) : (s.setPending l).resets = s.resets := rfl

@[simp] theorem State.reply_key (v : Word) (s : State) : (s.reply v).key = s.key := rfl
@[simp] theorem State.reply_dout (v : Word) (s : State) : (s.reply v).dout = s.dout := rfl
@[simp] theorem State.reply_kv (v : Word) (s : State) : (s.reply v).kv = s.kv := rfl
@[simp] theorem State.reply_err (v : Word) (s : State) : (s.reply v).err = s.err := rfl
@[simp] theorem State.reply_ecode (v : Word) (s : State) : (s.reply v).ecode = s.ecode := rfl
@[simp] theorem State.reply_pending (v : Word) (s : State) : (s.reply v).pending = s.pending := rfl
@[simp] theorem State.reply_replies (v : Word) (s : State) : (s.reply v).replies = s.replies ++ [v] := rfl
@[simp] theorem State.reply_resets (v : Word) (s : State) : (s.reply v).resets = s.resets := rfl

@[simp] theorem State.issue_key (l : List HostAccess) (s : State) : (s.issue l).key = s.key := rfl
@[simp] theorem State.issue_dout (l : List HostAccess) (s : State) : (s.issue l).dout = s.dout := rfl
@[simp] theorem State.issue_kv (l : List HostAccess) (s : State) : (s.issue l).kv = s.kv := rfl
@[simp] theorem State.issue_err (l : List HostAccess) (s : State) : (s.issue l).err = s.err := rfl
@[simp] theorem State.issue_ecode (l : List HostAccess) (s : State) : (s.issue l).ecode = s.ecode := rfl
@[simp] theorem State.issue_pending (l : List HostAccess) (s : State) : (s.issue l).pending = s.pending ++ l := rfl
@[simp] theorem State.issue_replies (l : List HostAccess) (s : State) : (s.issue l).replies = s.replies := rfl
@[simp] theorem State.issue_resets (l : List HostAccess) (s : State) : (s.issue l).resets = s.resets := rfl

theorem State.pushCommand_pending (w : Word) (s : State) :
    (s.pushCommand w).pending = .write addrCmd w :: s.pending := rfl

/-- Taking back the pushed write gives the state before it. -/
theorem State.setPending_pushCommand (w : Word) (s : State) : (s.pushCommand w).setPending s.pending = s := rfl

@[simp] theorem statusWord_setPending (l : List HostAccess) (s : State) :
    statusWord (s.setPending l) = statusWord s := rfl

@[simp] theorem nextEcode_setPending (e : CmdError) (l : List HostAccess) (s : State) :
    nextEcode e (s.setPending l) = nextEcode e s := rfl

end Sys2Proof.Machine
end

