-- ==== Sys2Proof/Laws/Step.lean ====
section
/-! SUPPORT. What each shared operation can do, said once: the result of a command, the command step, the port, the step. -/

namespace Sys2Proof.Machine

/-- A key-dependent command either writes its result (KV = 1) or raises KEY_NOT_LOADED (KV = 0). -/
theorem finishKeyed_next {n : Nat} {r : Bits n} {s t : State} (h : finishKeyed r s = .next t) :
    (s.kv = true ∧ t = s.writeResult r) ∨ (s.kv = false ∧ t = s.raiseError .keyNotLoaded) := by
  unfold finishKeyed at h
  split at h <;> rename_i hkv <;> injection h with h
  · exact .inl ⟨hkv, h.symm⟩
  · exact .inr ⟨by simpa using hkv, h.symm⟩

/-- What a command can do under a configuration: load a key, write a byte to DOUT (with KV = 1 if it needs the key), or
raise KEY_NOT_LOADED. -/
theorem execIn_cases (c : WfConfig) (i : Instr) (s : State) :
    (∃ k, i = .ldkey k ∧ execIn c i s = .next (s.loadKey k)) ∨
    (∃ r : Byte, (∀ k, i ≠ .ldkey k) ∧ (i.needsKey = true → s.kv = true) ∧
      execIn c i s = .next (s.writeResult r)) ∨
    (i.needsKey = true ∧ s.kv = false ∧ execIn c i s = .next (s.raiseError .keyNotLoaded)) := by
  have keyed : ∀ r : Byte, i.needsKey = true → (∀ k, i ≠ .ldkey k) → execIn c i s = finishKeyed r s →
      (∃ k, i = .ldkey k ∧ execIn c i s = .next (s.loadKey k)) ∨
      (∃ r : Byte, (∀ k, i ≠ .ldkey k) ∧ (i.needsKey = true → s.kv = true) ∧
        execIn c i s = .next (s.writeResult r)) ∨
      (i.needsKey = true ∧ s.kv = false ∧ execIn c i s = .next (s.raiseError .keyNotLoaded)) := by
    intro r hk hl he
    rcases hkv : s.kv with _ | _
    · exact .inr (.inr ⟨hk, rfl, by simp [he, finishKeyed, hkv]⟩)
    · exact .inr (.inl ⟨r, hl, fun _ => rfl, by simp [he, finishKeyed, hkv]⟩)
  cases i with
  | ldkey k => exact .inl ⟨k, rfl, rfl⟩
  | ip b => exact .inr (.inl ⟨ipPerm c b, by simp, by simp [Instr.needsKey], rfl⟩)
  | ipinv b => exact .inr (.inl ⟨ipInvPerm c b, by simp, by simp [Instr.needsKey], rfl⟩)
  | ep n => exact .inr (.inl ⟨epExpand n, by simp, by simp [Instr.needsKey], rfl⟩)
  | p4 n => exact .inr (.inl ⟨zext8 (p4Perm n), by simp, by simp [Instr.needsKey], by
      simp [execIn, execP4, finish, State.writeResult, zext8]⟩)
  | s0 n => exact .inr (.inl ⟨zext8 (sbox0 n), by simp, by simp [Instr.needsKey], by
      simp [execIn, execS0, finish, State.writeResult, zext8]⟩)
  | s1 n => exact .inr (.inl ⟨zext8 (sbox1 n), by simp, by simp [Instr.needsKey], by
      simp [execIn, execS1, finish, State.writeResult, zext8]⟩)
  | enc b => exact keyed (encryptByte c s.key b) rfl (by simp) rfl
  | dec b => exact keyed (decryptByte c s.key b) rfl (by simp) rfl
  | sk1 => exact keyed (subkey1 c s.key) rfl (by simp) rfl
  | sk2 => exact keyed (subkey2 c s.key) rfl (by simp) rfl
  | fk1 b => exact keyed (roundF b (subkey1 c s.key)) rfl (by simp) rfl
  | fk2 b => exact keyed (roundF b (subkey2 c s.key)) rfl (by simp) rfl

/-- The engine's `exec` is `execIn` at the engine's own configuration. -/
theorem exec_eq_execIn (i : Instr) (s : State) : exec i s = execIn Config.engine i s := by
  cases i <;> rfl

/-- A command word that decodes runs its command. -/
theorem commandStep_command (run : Instr → State → Host.Outcome State Fault Refusal) {w : Word} {i : Instr}
    (h : decode w = .command i) (s : State) : commandStep run w s = run i s := by
  simp [commandStep, h]

/-- A command word that is rejected raises its error. -/
theorem commandStep_rejected (run : Instr → State → Host.Outcome State Fault Refusal) {w : Word} {e : CmdError}
    (h : decode w = .rejected e) (s : State) : commandStep run w s = .next (s.raiseError e) := by
  simp [commandStep, h]

/-- With a pending access, a step takes it from the list and serves it. -/
theorem stepWith_cons (run : Instr → State → Host.Outcome State Fault Refusal) {s : State} {a : HostAccess}
    {rest : List HostAccess} (h : s.pending = a :: rest) : stepWith run s = serve run a (s.setPending rest) := by
  simp [stepWith, h]

/-- With no pending access, a step changes nothing. -/
theorem stepWith_nil (run : Instr → State → Host.Outcome State Fault Refusal) {s : State} (h : s.pending = []) :
    stepWith run s = .next s := by
  simp [stepWith, h]

theorem portReg_cmd : portReg addrCmd = .cmd := rfl
theorem portReg_dout : portReg addrDout = .dout := rfl
theorem portReg_status : portReg addrStatus = .status := rfl

/-- What serving one access does, for any meaning of commands: a reset; a read, which only logs its value; a write that
does nothing (its address is not CMD's); or the command step on a written word. -/
theorem serve_cases (run : Instr → State → Host.Outcome State Fault Refusal) (a : HostAccess) (s : State) :
    (a = .reset ∧ serve run a s = .next s.resetEngine) ∨
    (∃ p, a = .read p ∧ serve run a s = .next (s.reply (portRead (portReg p) s))) ∨
    (∃ p w, a = .write p w ∧ portReg p ≠ .cmd ∧ serve run a s = .next s) ∨
    (∃ p w, a = .write p w ∧ portReg p = .cmd ∧ serve run a s = commandStep run w s) := by
  cases a with
  | reset => exact .inl ⟨rfl, rfl⟩
  | read p => exact .inr (.inl ⟨p, rfl, rfl⟩)
  | write p w =>
    rcases h : portReg p with _ | _ | _ | _
    · exact .inr (.inr (.inr ⟨p, w, rfl, h, by simp [serve, portWrite, h]⟩))
    all_goals exact .inr (.inr (.inl ⟨p, w, rfl, by simp [h], by simp [serve, portWrite, h]⟩))

/-- A read returns a value whose upper byte is 0. -/
theorem portRead_lt (r : PortReg) (s : State) : (portRead r s).toNat < 256 := by
  have narrow : ∀ b : Byte, (zext16 b).toNat < 256 := by decide +kernel
  cases r with
  | cmd => exact Nat.zero_lt_succ _
  | dout => exact narrow _
  | status => exact narrow _
  | reserved => exact Nat.zero_lt_succ _

/-- Only address 0 is CMD. -/
theorem eq_of_portReg_cmd {p : Bits 2} (h : portReg p = .cmd) : p = addrCmd := by
  revert p; decide

/-- What the engine can do on one access: a reset; a read, which only logs its value; an ignored write; a CMD write that
fails, by raising an error; a CMD write that loads a key; a CMD write of another command, which only writes DOUT. -/
theorem serve_exec_cases (a : HostAccess) (s : State) :
    (a = .reset ∧ serve exec a s = .next s.resetEngine) ∨
    (∃ p, a = .read p ∧ serve exec a s = .next (s.reply (portRead (portReg p) s))) ∨
    (∃ p w, a = .write p w ∧ p ≠ addrCmd ∧ serve exec a s = .next s) ∨
    (∃ w e, a = .write addrCmd w ∧ serve exec a s = .next (s.raiseError e)) ∨
    (∃ w k, a = .write addrCmd w ∧ decode w = .command (.ldkey k) ∧ serve exec a s = .next (s.loadKey k)) ∨
    (∃ w i, ∃ r : Byte, a = .write addrCmd w ∧ decode w = .command i ∧ (∀ k, i ≠ .ldkey k) ∧
      (i.needsKey = true → s.kv = true) ∧ serve exec a s = .next (s.writeResult r)) := by
  rcases serve_cases exec a s with ⟨h, h'⟩ | ⟨p, h, h'⟩ | ⟨p, w, h, hp, h'⟩ | ⟨p, w, h, hp, h'⟩
  · exact .inl ⟨h, h'⟩
  · exact .inr (.inl ⟨p, h, h'⟩)
  · exact .inr (.inr (.inl ⟨p, w, h, fun e => hp (e ▸ portReg_cmd), h'⟩))
  · obtain rfl := eq_of_portReg_cmd hp
    rcases hd : decode w with i | e
    · rw [commandStep_command _ hd, exec_eq_execIn] at h'
      rcases execIn_cases Config.engine i s with ⟨k, rfl, h2⟩ | ⟨r, h1, h2, h3⟩ | ⟨-, -, h2⟩
      · exact .inr (.inr (.inr (.inr (.inl ⟨w, k, h, hd, h'.trans h2⟩))))
      · exact .inr (.inr (.inr (.inr (.inr ⟨w, i, r, h, hd, h1, h2, h'.trans h3⟩))))
      · exact .inr (.inr (.inr (.inl ⟨w, _, h, h'.trans h2⟩)))
    · rw [commandStep_rejected _ hd] at h'
      exact .inr (.inr (.inr (.inl ⟨w, e, h, h'⟩)))

/-- What a step can do: nothing, with nothing pending; else serve the oldest access. -/
theorem step_cases (s : State) :
    (s.pending = [] ∧ step s = .next s) ∨
    ∃ a rest, s.pending = a :: rest ∧ step s = serve exec a (s.setPending rest) := by
  rcases h : s.pending with _ | ⟨a, rest⟩
  · exact .inl ⟨rfl, stepWith_nil exec h⟩
  · exact .inr ⟨a, rest, rfl, stepWith_cons exec h⟩

end Sys2Proof.Machine
end

