-- ==== Sys2Proof/Tests/Slice0.lean ====
section
/-! SUPPORT. Tests of the model against the vectors of 95_test_vectors.md and the examples of the rules, the smoke tests of
the checks, and, for each obligation with hypotheses, a witness that something meets them. -/

namespace Sys2Proof.Tests

-- One declaration at a time: waiting checks each hold a thread's stack, and together they pass the data limit.
set_option Elab.async false

open Sys2Proof Sys2Proof.Machine

/-- DOUT and STATUS after an outcome. -/
def seen : Host.Outcome State Fault Refusal → Option (Byte × Byte)
  | .next s => some (s.dout, statusWord s)
  | .fault _ => none
  | .refused _ => none

/-- A state with a loaded key and nothing pending. -/
def loaded (k : Key) : State := { State.reset with key := k, kv := true }

/-- KEY of the spec's examples: `1010000010`. -/
def exampleKey : Key := 0b1010000010#10

/-! ### Smoke tests of the checks: one ill-formed term each -/

theorem test_wf_ip_len : { SdesConfig.refCfg with pIp := [0, 1, 2] }.passes .wfIpLen = false := by decide
/-- 95_test_vectors.md S4. -/
theorem test_wf_ip_range : { SdesConfig.refCfg with pIp := [1, 5, 2, 0, 3, 7, 4, 8] }.firstFailing = some .wfIpRange := by
  decide
theorem test_wf_ip_perm : { SdesConfig.refCfg with pIp := [1, 1, 2, 0, 3, 7, 4, 6] }.firstFailing = some .wfIpPerm := by
  decide
theorem test_wf_ipinv_len : { SdesConfig.refCfg with pIpInv := [] }.firstFailing = some .wfIpInvLen := by decide
theorem test_wf_ipinv_range :
    { SdesConfig.refCfg with pIpInv := [3, 0, 2, 4, 6, 1, 7, 8] }.firstFailing = some .wfIpInvRange := by decide
theorem test_wf_ipinv_inverse :
    { SdesConfig.refCfg with pIpInv := [0, 3, 2, 4, 6, 1, 7, 5] }.firstFailing = some .wfIpInvInverse := by decide
theorem test_wf_epv1_len : { SdesConfig.refCfg with pEpv1 := [0] }.firstFailing = some .wfEpv1Len := by decide
theorem test_wf_epv1_range :
    { SdesConfig.refCfg with pEpv1 := [0, 6, 8, 3, 7, 2, 9, 10] }.firstFailing = some .wfEpv1Range := by decide
theorem test_wf_epv2_len : { SdesConfig.refCfg with pEpv2 := [0] }.firstFailing = some .wfEpv2Len := by decide
theorem test_wf_epv2_range :
    { SdesConfig.refCfg with pEpv2 := [7, 2, 5, 4, 9, 1, 8, 10] }.firstFailing = some .wfEpv2Range := by decide
/-- Nine digits are no key; a byte needs two hex or eight binary digits, or a value up to 255; a nibble one or four, or a
value up to 15; a raw word four hex digits (30_encoding.md R70). -/
theorem test_key_operand : (Literal.bin [true, false, true, false, false, false, false, false, true]).fits .key = false := by
  decide
theorem test_byte_operand : (Literal.hex [1, 2, 3]).fits .byte = false ∧ (Literal.dec [2, 5, 6]).fits .byte = false ∧
    (Literal.bin [true]).fits .byte = false := by decide
theorem test_nibble_operand : (Literal.hex [1, 0]).fits .nibble = false ∧ (Literal.dec [1, 6]).fits .nibble = false ∧
    (Literal.bin [true]).fits .nibble = false := by decide
theorem test_word_operand : (Literal.hex [1, 2, 3]).fits .word = false ∧ (Literal.dec [1]).fits .word = false := by decide

/-! ### Decoding: words written out from the patterns of 30_encoding.md R61 to R66 -/

theorem test_decode_ldkey : decode 0b0001001010000010#16 = .command (.ldkey 0b1010000010#10) := by decide
theorem test_decode_enc : decode 0b0010000010010111#16 = .command (.enc 0x97#8) := by decide
theorem test_decode_dec : decode 0b0011000000111000#16 = .command (.dec 0x38#8) := by decide
theorem test_decode_ip : decode 0b0100000010010111#16 = .command (.ip 0x97#8) := by decide
theorem test_decode_ipinv : decode 0b0101000001011101#16 = .command (.ipinv 0x5D#8) := by decide
theorem test_decode_ep : decode 0b0110000000001010#16 = .command (.ep 0b1010#4) := by decide
theorem test_decode_p4 : decode 0b0111000000000001#16 = .command (.p4 0b0001#4) := by decide
theorem test_decode_s0 : decode 0b1000000000001011#16 = .command (.s0 0b1011#4) := by decide
theorem test_decode_s1 : decode 0b1001000000001000#16 = .command (.s1 0b1000#4) := by decide
theorem test_decode_sk1 : decode 0b1010000000000000#16 = .command .sk1 := by decide
theorem test_decode_sk2 : decode 0b1011000000000000#16 = .command .sk2 := by decide
theorem test_decode_fk1 : decode 0b1100000001011101#16 = .command (.fk1 0x5D#8) := by decide
theorem test_decode_fk2 : decode 0b1101000011011010#16 = .command (.fk2 0xDA#8) := by decide
theorem test_decode_rejects : decode 0x0000#16 = .rejected .illegalOpcode ∧ decode 0xE123#16 = .rejected .illegalOpcode ∧
    decode 0xF000#16 = .rejected .illegalOpcode ∧ decode 0x2100#16 = .rejected .reservedNonzero ∧
    decode 0x1400#16 = .rejected .reservedNonzero ∧ decode 0x6010#16 = .rejected .reservedNonzero ∧
    decode 0x7800#16 = .rejected .reservedNonzero ∧ decode 0xA001#16 = .rejected .reservedNonzero := by decide
theorem test_table_word : decodeTableWord 16 0xD0DA = some (.fk2 0xDA#8) ∧ decodeTableWord 16 0xE000 = none := by decide

/-! ### Commands: 95_test_vectors.md section 2; those that read an open table run under REFCFG -/

theorem test_ldkey : seen (cmdWrite 0x1282#16 State.reset) = some (0x00#8, 0x01#8) := by decide +kernel
theorem test_sk1 : seen (execIn .refCfg .sk1 (loaded exampleKey)) = some (0xA4#8, 0x01#8) := by decide +kernel
theorem test_sk1_key_bits : seen (execIn .refCfg .sk1 (loaded 0b0111111101#10)) = some (0x5F#8, 0x01#8) := by
  decide +kernel
theorem test_sk2 : seen (execIn .refCfg .sk2 (loaded exampleKey)) = some (0x43#8, 0x01#8) := by decide +kernel
theorem test_sk2_key_bits : seen (execIn .refCfg .sk2 (loaded 0b0111111101#10)) = some (0xFC#8, 0x01#8) := by
  decide +kernel
theorem test_enc : seen (execIn .refCfg (.enc 0x97#8) (loaded exampleKey)) = some (0x38#8, 0x01#8) := by decide +kernel
theorem test_enc_other_key : seen (execIn .refCfg (.enc 0x41#8) (loaded 0b1100011110#10)) = some (0x4C#8, 0x01#8) := by
  decide +kernel
theorem test_dec : seen (execIn .refCfg (.dec 0x97#8) (loaded exampleKey)) = some (0x8C#8, 0x01#8) := by decide +kernel
theorem test_dec_other_key : seen (execIn .refCfg (.dec 0x38#8) (loaded 0b0111111101#10)) = some (0xA2#8, 0x01#8) := by
  decide +kernel
theorem test_ip : seen (execIn .refCfg (.ip 0x41#8) State.reset) = some (0x84#8, 0x00#8) := by decide +kernel
theorem test_ipinv : seen (execIn .refCfg (.ipinv 0x97#8) State.reset) = some (0xCB#8, 0x00#8) := by decide +kernel
theorem test_ep : seen (cmdWrite 0x6001#16 State.reset) = some (0x82#8, 0x00#8) := by decide +kernel
theorem test_p4 : seen (cmdWrite 0x7006#16 State.reset) = some (0x0A#8, 0x00#8) := by decide +kernel
theorem test_s0 : seen (cmdWrite 0x8001#16 State.reset) = some (0x03#8, 0x00#8) := by decide +kernel
theorem test_s1 : seen (cmdWrite 0x9006#16 State.reset) = some (0x03#8, 0x00#8) := by decide +kernel
theorem test_fk1 : seen (execIn .refCfg (.fk1 0x00#8) (loaded exampleKey)) = some (0x30#8, 0x01#8) := by decide +kernel
theorem test_fk2 : seen (execIn .refCfg (.fk2 0x2A#8) (loaded exampleKey)) = some (0xDA#8, 0x01#8) := by decide +kernel
/-- 95_test_vectors.md 2.5 and 2.6. -/
theorem test_round : roundF 0x12#8 0x34#8 = 0x12#8 ∧ roundF 0x0F#8 0x00#8 = 0x7F#8 ∧
    innerNetwork 0x5D#8 0x43#8 0xA4#8 = 0x52#8 := by decide +kernel

/-! ### Errors: 95_test_vectors.md 2.7 -/

theorem test_illegal : seen (cmdWrite 0xE123#16 State.reset) = some (0x00#8, 0x06#8) := by decide +kernel
theorem test_reserved_before_key : seen (cmdWrite 0x2100#16 State.reset) = some (0x00#8, 0x0A#8) := by decide +kernel
theorem test_key_missing : seen (cmdWrite 0xC05D#16 State.reset) = some (0x00#8, 0x0E#8) := by decide +kernel
theorem test_first_code_kept :
    seen (cmdWrite 0x2141#16 { loaded exampleKey with dout := 0x38#8, err := true, ecode := 3#2 }) =
      some (0x38#8, 0x0F#8) := by decide +kernel
theorem test_bad_config : (match stepUnder { SdesConfig.refCfg with pEpv1 := [] } State.reset with
    | .refused r => some r | _ => none) = some (.badConfig .wfEpv1Len) := by decide +kernel

/-! ### Assembler: 30_encoding.md R70, R71, with bus words of 95_test_vectors.md section 3 -/

theorem test_asm_ldkey : assembleLine "LDKEY 0b1010000010 ; the key".toList = some [.write 0#2 0x1282#16] := by
  decide +kernel
theorem test_asm_word : assembleLine ".word 0xE000".toList = some [.write 0#2 0xE000#16] := by decide +kernel
theorem test_asm_encmsg : assembleLine "ENCMSG 0x41, 65".toList =
    some [.write 0#2 0x2041#16, .read 1#2, .write 0#2 0x2041#16, .read 1#2] := by decide +kernel
theorem test_asm_program : assemble ["SK1".toList, "RD DOUT".toList, "".toList, "CHECK".toList, "RESET".toList] =
    some [.write 0#2 0xA000#16, .read 1#2, .read 2#2, .reset] := by decide +kernel
theorem test_asm_out_of_range : assembleLine "EP 16".toList = none ∧ assembleLine "ENC 256".toList = none ∧
    assembleLine "LDKEY 0b101".toList = none ∧ assembleLine "SK1 0x0".toList = none := by decide +kernel

/-! ### Witnesses: the hypotheses of each obligation can be met -/

theorem witness_EncodeOfDecode : decode 0x2097#16 = .command (.enc 0x97#8) := by decide
theorem witness_OperandElementsAreWordBits :
    decode 0x13FF#16 = .command (.ldkey 0x3FF#10) ∧ decode 0xD0FF#16 = .command (.fk2 0xFF#8) ∧
    decode 0x900F#16 = .command (.s1 0xF#4) := by decide
theorem witness_CommandWordErrors_illegal : ((0xF000#16).extractLsb' 12 4).toNat ∈ [0x0, 0xE, 0xF] := by decide
theorem witness_CommandWordErrors_reserved :
    ((0x1400#16).extractLsb' 12 4).toNat ∉ [0x0, 0xE, 0xF] ∧ ((0x1400#16).extractLsb' 12 4).toNat = 0x1 ∧
    (0x1400#16).extractLsb' 10 2 ≠ 0#2 := by decide
theorem witness_CommandWordErrors_key :
    ((0xD000#16).extractLsb' 12 4).toNat ∈ [0x2, 0x3, 0xA, 0xB, 0xC, 0xD] ∧ (0xD000#16).extractLsb' 8 4 = 0#4 ∧
    State.reset.kv = false := by decide
theorem witness_CommandWordErrors_none :
    ((0x600F#16).extractLsb' 12 4).toNat ∉ [0x0, 0xE, 0xF] ∧ ((0x600F#16).extractLsb' 12 4).toNat = 0x6 ∧
    (0x600F#16).extractLsb' 4 8 = 0#8 := by decide
theorem witness_StepRunsDecodedCommand :
    (State.reset.pushCommand 0x600A#16).pending = .write 0#2 0x600A#16 :: [] ∧
    decode 0x600A#16 = .command (.ep 0xA#4) := ⟨rfl, by decide⟩
theorem witness_QuietAccessesOnlyReply :
    ∀ a ∈ [HostAccess.read 1#2, .write 3#2 0xFFFF#16, .read 0#2], quiet a = true := by decide
theorem witness_IdleStateHolds : State.reset.pending = [] := rfl
/-- A loaded key and none: the two hypotheses on KV, for ENC, DEC, SK1, SK2, FK1, FK2, `EncDecRoundTripOnMachine`,
`EncmsgEncryptsMessage`, `MessageRoundTrip` and `PipelineLaws` (b); none, for `UnloadedKeyNeverObserved`. -/
theorem witness_key_loaded : (loaded exampleKey).kv = true ∧ (loaded exampleKey).key = exampleKey := ⟨rfl, rfl⟩
theorem witness_key_not_loaded : State.reset.kv = false := rfl
theorem witness_LdkeyLoadsKey : 0x13FF#16 &&& 0xFC00#16 = 0x1000#16 ∧ (0x1400#16).extractLsb' 12 4 = 0x1#4 ∧
    (0x1400#16).extractLsb' 10 2 ≠ 0#2 := by decide
theorem witness_EncEncryptsByte : 0x20FF#16 &&& 0xFF00#16 = 0x2000#16 ∧ (0x2100#16).extractLsb' 12 4 = 0x2#4 ∧
    (0x2100#16).extractLsb' 8 4 ≠ 0#4 := by decide
theorem witness_DecDecryptsByte : 0x30FF#16 &&& 0xFF00#16 = 0x3000#16 ∧ (0x3800#16).extractLsb' 12 4 = 0x3#4 ∧
    (0x3800#16).extractLsb' 8 4 ≠ 0#4 := by decide
theorem witness_IpPermutesByte : 0x40FF#16 &&& 0xFF00#16 = 0x4000#16 ∧ (0x4197#16).extractLsb' 12 4 = 0x4#4 ∧
    (0x4197#16).extractLsb' 8 4 ≠ 0#4 := by decide
theorem witness_IpinvPermutesByte : 0x50FF#16 &&& 0xFF00#16 = 0x5000#16 ∧ (0x5100#16).extractLsb' 12 4 = 0x5#4 ∧
    (0x5100#16).extractLsb' 8 4 ≠ 0#4 := by decide
theorem witness_EpExpandsNibble : 0x600F#16 &&& 0xFFF0#16 = 0x6000#16 ∧ (0x6010#16).extractLsb' 12 4 = 0x6#4 ∧
    (0x6010#16).extractLsb' 4 8 ≠ 0#8 := by decide
theorem witness_P4PermutesNibble : 0x700F#16 &&& 0xFFF0#16 = 0x7000#16 ∧ (0x7800#16).extractLsb' 12 4 = 0x7#4 ∧
    (0x7800#16).extractLsb' 4 8 ≠ 0#8 := by decide
theorem witness_S0LooksUpBox : 0x800F#16 &&& 0xFFF0#16 = 0x8000#16 ∧ (0x8010#16).extractLsb' 12 4 = 0x8#4 ∧
    (0x8010#16).extractLsb' 4 8 ≠ 0#8 := by decide
theorem witness_S1LooksUpBox : 0x900F#16 &&& 0xFFF0#16 = 0x9000#16 ∧ (0x9800#16).extractLsb' 12 4 = 0x9#4 ∧
    (0x9800#16).extractLsb' 4 8 ≠ 0#8 := by decide
theorem witness_Sk1ReadsSubkey : (0xA001#16).extractLsb' 12 4 = 0xA#4 ∧ (0xA001#16).extractLsb' 0 12 ≠ 0#12 := by decide
theorem witness_Sk2ReadsSubkey : (0xB800#16).extractLsb' 12 4 = 0xB#4 ∧ (0xB800#16).extractLsb' 0 12 ≠ 0#12 := by decide
theorem witness_Fk1RunsOneRound : 0xC0FF#16 &&& 0xFF00#16 = 0xC000#16 ∧ (0xC100#16).extractLsb' 12 4 = 0xC#4 ∧
    (0xC100#16).extractLsb' 8 4 ≠ 0#4 := by decide
theorem witness_Fk2RunsOneRound : 0xD0FF#16 &&& 0xFF00#16 = 0xD000#16 ∧ (0xD800#16).extractLsb' 12 4 = 0xD#4 ∧
    (0xD800#16).extractLsb' 8 4 ≠ 0#4 := by decide
/-- Different subkeys (one side of the clause on encrypting twice in `EncEncryptsByte`), under REFCFG. -/
theorem witness_different_subkeys_refCfg : subkey1 .refCfg exampleKey ≠ subkey2 .refCfg exampleKey := by decide +kernel
/-- Equal subkeys (the other side in `EncEncryptsByte`, and the premise in `PipelineLaws` (d)): the all-zero key, here under REFCFG and under
the engine's own tables. -/
theorem witness_equal_subkeys_refCfg : subkey1 .refCfg 0#10 = subkey2 .refCfg 0#10 := by decide +kernel
theorem witness_equal_subkeys : subkey1 Config.engine 0#10 = subkey2 Config.engine 0#10 := by
  apply eq_of_elements
  intro i hi
  simp [subkey1, subkey2, permuteSelect, getMsbD_bitsOfFn _ i hi]
theorem witness_FirstErrorKeptUntilReset :
    (State.raiseError .illegalOpcode State.reset).err = true ∧
    HostAccess.reset ∉ (State.raiseError .illegalOpcode State.reset).pending := by
  simp [State.reset]
theorem witness_KvSetByLdkeyClearedByReset_clear :
    hostDoes .reset (loaded exampleKey) = .next (loaded exampleKey).resetEngine ∧
    (loaded exampleKey).kv = true ∧ (loaded exampleKey).resetEngine.kv = false := ⟨rfl, rfl, rfl⟩
theorem witness_KvSetByLdkeyClearedByReset_set :
    hostDoes (.write 0#2 0x1282#16) State.reset = .next (State.reset.loadKey exampleKey) ∧
    State.reset.kv = false ∧ (State.reset.loadKey exampleKey).kv = true := ⟨rfl, rfl, rfl⟩
theorem witness_KeyWrittenOnlyByLdkey :
    hostDoes (.write 0#2 0x1282#16) (loaded 0#10) = .next ((loaded 0#10).loadKey exampleKey) ∧
    ((loaded 0#10).loadKey exampleKey).key ≠ (loaded 0#10).key := ⟨rfl, by decide⟩
theorem witness_KeyWrittenOnlyByLdkey_reset :
    hostDoes .reset { State.reset with key := ~~~(Config.unwrittenKey 1) } =
      .next (State.resetEngine { State.reset with key := ~~~(Config.unwrittenKey 1) }) ∧
    (State.resetEngine { State.reset with key := ~~~(Config.unwrittenKey 1) }).key ≠ ~~~(Config.unwrittenKey 1) := by
  refine ⟨rfl, ?_⟩
  have h : ∀ k : Key, k ≠ ~~~k := by decide +kernel
  exact h (Config.unwrittenKey 1)
theorem witness_DoutWrittenOnlyBySuccess :
    hostDoes (.write 0#2 0x600F#16) State.reset = .next { State.reset with dout := 0xFF#8 } ∧
    ({ State.reset with dout := 0xFF#8 } : State).dout ≠ State.reset.dout := ⟨rfl, by decide⟩
theorem witness_DoutWrittenOnlyBySuccess_reset :
    hostDoes .reset { State.reset with dout := 0xFF#8 } = .next (State.resetEngine { State.reset with dout := 0xFF#8 }) ∧
    (State.resetEngine { State.reset with dout := 0xFF#8 }).dout ≠ 0xFF#8 := ⟨rfl, by decide⟩
theorem witness_StepKeepsLegal :
    Legal (State.reset.pushCommand 0xE000#16) ∧
    step (State.reset.pushCommand 0xE000#16) = .next (State.reset.raiseError .illegalOpcode) :=
  ⟨⟨by simp [State.pushCommand, State.reset], by simp [State.pushCommand, State.reset]⟩, rfl⟩
theorem witness_BadConfigurationRefused :
    SdesConfig.refCfg.wellFormed = true ∧ { SdesConfig.refCfg with pIp := [] }.passes .wfIpLen = false := by decide
theorem witness_BitsAndBytesConvert : 0xFF < 2 ^ 8 ∧ bitsToByte (0b11#2) < 2 ^ 2 := by decide

end Sys2Proof.Tests
end

/-! The engine's step as the configured machine (00_scope.md R6; log entries 1 and 8): `exec` is `execIn` at the engine's
tables, and a well-formed configuration fails no check, so its raw tables are never refused. -/

namespace Sys2Proof

/-- The first failing check of R88 is none exactly for a well-formed configuration. -/
theorem SdesConfig.firstFailing_eq_none_iff (c : SdesConfig) : c.firstFailing = none ↔ c.wellFormed = true := by
  refine ⟨c.wellFormed_of_firstFailing, fun h => List.find?_eq_none.mpr fun k _ => ?_⟩
  simp [c.passes_of_wellFormed h k]

namespace Machine

/-- The engine's step is the configured machine at the engine's own configuration. -/
theorem step_eq_stepIn (s : State) : step s = stepIn Config.engine s := by
  have hexec : exec = execIn Config.engine := funext fun i => funext fun s => exec_eq_execIn i s
  rw [step, stepIn, hexec]

/-- The raw tables of a well-formed configuration pass the checks, and the machine under them is the configured one. -/
theorem stepUnder_raw (c : WfConfig) (s : State) : stepUnder c.raw s = stepIn c s := by
  have hnone : c.raw.firstFailing = none := c.raw.firstFailing_eq_none_iff.mpr c.ok
  unfold stepUnder
  split
  · rfl
  · next k hsome => rw [hnone] at hsome; contradiction

/-- Settles O37: `exec` is `execIn` at `Config.engine`, and the engine's raw tables pass every check of R88. -/
theorem stepIsConfiguredMachine : Obligations.StepIsConfiguredMachine := by
  unfold Obligations.StepIsConfiguredMachine
  intro s
  exact ⟨step_eq_stepIn s, (stepUnder_raw Config.engine s).trans (step_eq_stepIn s).symm⟩

end Machine

end Sys2Proof

/-! The registers along a run (10_state.md): what serving one access leaves, as a relation with one constructor per
kind of access; the induction along a run, said once; then what every step keeps of KEY, DOUT, KV, ERR and ECODE. -/

namespace Sys2Proof.Machine

/-- `ServedTo a s t`: the engine, serving the access `a` in the state `s`, is left in `t`. Its constructors are the ways
`serve exec` can end (`serve_exec_servedTo`). -/
inductive ServedTo : HostAccess → State → State → Prop where
  /-- A reset (70_reset_and_hazards.md R220). -/
  | reset (s : State) : ServedTo .reset s s.resetEngine
  /-- A read, which only logs its value (20_memory.md R41). -/
  | read (p : Bits 2) (s : State) : ServedTo (.read p) s (s.reply (portRead (portReg p) s))
  /-- A write to an address other than CMD's (R41). -/
  | ignored {p : Bits 2} (w : Word) (s : State) (hp : p ≠ addrCmd) : ServedTo (.write p w) s s
  /-- A CMD write that fails (60_exceptions.md R192). -/
  | failed (w : Word) (e : CmdError) (s : State) : ServedTo (.write addrCmd w) s (s.raiseError e)
  /-- A CMD write of LDKEY (41_key_schedule.md R112). -/
  | loaded {w : Word} {k : Key} (s : State) (hd : decode w = .command (.ldkey k)) :
      ServedTo (.write addrCmd w) s (s.loadKey k)
  /-- A CMD write of another command, which succeeds (30_encoding.md R73). -/
  | result {w : Word} {i : Instr} (r : Byte) {s : State} (hd : decode w = .command i) (hi : ∀ k, i ≠ .ldkey k)
      (hk : i.needsKey = true → s.kv = true) : ServedTo (.write addrCmd w) s (s.writeResult r)

/-- Serving an access completes, in one of the ways of `ServedTo`. -/
theorem serve_exec_servedTo (a : HostAccess) (s : State) : ∃ t, serve exec a s = .next t ∧ ServedTo a s t := by
  rcases serve_exec_cases a s with ⟨rfl, h⟩ | ⟨p, rfl, h⟩ | ⟨p, w, rfl, hp, h⟩ | ⟨w, e, rfl, h⟩ |
    ⟨w, k, rfl, hd, h⟩ | ⟨w, i, r, rfl, hd, hi, hk, h⟩
  · exact ⟨_, h, .reset s⟩
  · exact ⟨_, h, .read p s⟩
  · exact ⟨_, h, .ignored w s hp⟩
  · exact ⟨_, h, .failed w e s⟩
  · exact ⟨_, h, .loaded s hd⟩
  · exact ⟨_, h, .result r hd hi hk⟩

/-- A step completes: idle with nothing pending, else by serving the oldest access. -/
theorem step_servedTo (s : State) :
    (s.pending = [] ∧ step s = .next s) ∨
    ∃ a rest t, s.pending = a :: rest ∧ step s = .next t ∧ ServedTo a (s.setPending rest) t := by
  rcases step_cases s with h | ⟨a, rest, hp, hs⟩
  · exact .inl h
  · obtain ⟨t, ht, hserved⟩ := serve_exec_servedTo a (s.setPending rest)
    exact .inr ⟨a, rest, t, hp, hs.trans ht, hserved⟩

theorem step_completes (s : State) : ∃ t, step s = .next t := by
  rcases step_servedTo s with ⟨-, h⟩ | ⟨-, -, t, -, h, -⟩
  · exact ⟨s, h⟩
  · exact ⟨t, h⟩

/-- The step that takes an access the host makes now serves it in the state before. -/
theorem hostDoes_eq_serve (a : HostAccess) (s : State) : hostDoes a s = serve exec a s := rfl

theorem servedTo_of_hostDoes {a : HostAccess} {s t : State} (h : hostDoes a s = .next t) : ServedTo a s t := by
  obtain ⟨u, hu, hserved⟩ := serve_exec_servedTo a s
  rw [hostDoes_eq_serve, hu] at h
  cases h
  exact hserved

/-- Serving an access leaves the other pending ones alone. -/
theorem ServedTo.pending_eq {a : HostAccess} {s t : State} (h : ServedTo a s t) : t.pending = s.pending := by
  cases h <;> rfl

/-- A run of the machine whose first step completes goes on from there. -/
theorem run_succ {s t : State} (h : step s = .next t) (n : Nat) :
    Host.Core.run core (n + 1) s = Host.Core.run core n t := by
  simp only [Host.Core.run, core, h]

/-- Two runs of equal length complete in related states when every step from related states does. -/
theorem run_related {R : State → State → Prop}
    (hstep : ∀ s u, R s u → ∃ s' u', step s = .next s' ∧ step u = .next u' ∧ R s' u') (n : Nat) {s u : State}
    (h : R s u) : ∃ t v : State, Host.Core.run core n s = .next t ∧ Host.Core.run core n u = .next v ∧ R t v := by
  induction n generalizing s u with
  | zero => exact ⟨s, u, rfl, rfl, h⟩
  | succ n ih =>
    obtain ⟨s', u', hs, hu, h'⟩ := hstep s u h
    rw [run_succ hs, run_succ hu]
    exact ih h'

/-- A run completes and keeps what every step keeps. -/
theorem run_keeps {P : State → Prop} (hstep : ∀ s, P s → ∃ t, step s = .next t ∧ P t) (n : Nat) {s : State}
    (h : P s) : ∃ t : State, Host.Core.run core n s = .next t ∧ P t := by
  have hdiag : ∀ s u : State, u = s ∧ P s →
      ∃ s' u', step s = .next s' ∧ step u = .next u' ∧ u' = s' ∧ P s' := by
    rintro s _ ⟨rfl, hs⟩
    obtain ⟨t, ht, hP⟩ := hstep _ hs
    exact ⟨t, t, ht, ht, rfl, hP⟩
  obtain ⟨t, -, ht, -, -, hP⟩ := run_related (R := fun s u => u = s ∧ P s) hdiag n ⟨rfl, h⟩
  exact ⟨t, ht, hP⟩

/-! ### The legal states (10_state.md R24, 20_memory.md R41) -/

/-- No error has the code 00, which means none (60_exceptions.md R190). -/
theorem errorCode_ne_zero (e : CmdError) : errorCode e ≠ 0#2 := by
  cases e <;> decide

/-- After an error in a legal state ECODE is not 00: it keeps the earlier error's code, or takes the new one's. -/
theorem nextEcode_ne_zero {s : State} (h : Legal s) (e : CmdError) : nextEcode e s ≠ 0#2 := by
  unfold nextEcode
  split
  · next herr => simpa [herr] using mt h.ecode_iff.mp
  · exact errorCode_ne_zero e

/-- Serving an access keeps the legal states. -/
theorem ServedTo.legal {a : HostAccess} {s t : State} (h : ServedTo a s t) (hs : Legal s) : Legal t := by
  cases h with
  | reset => exact ⟨by simp, hs.replies_narrow⟩
  | read p =>
    refine ⟨hs.ecode_iff, fun r hr => ?_⟩
    rcases List.mem_append.mp hr with hr | hr
    · exact hs.replies_narrow r hr
    · exact List.mem_singleton.mp hr ▸ portRead_lt (portReg p) s
  | ignored => exact hs
  | failed w e => exact ⟨by simp [nextEcode_ne_zero hs e], hs.replies_narrow⟩
  | loaded => exact ⟨hs.ecode_iff, hs.replies_narrow⟩
  | result => exact ⟨hs.ecode_iff, hs.replies_narrow⟩

/-- Settles O33: an idle step changes nothing, and serving an access keeps the legal states. -/
theorem stepKeepsLegal : Obligations.StepKeepsLegal := by
  unfold Obligations.StepKeepsLegal
  intro s t hs ht
  rcases step_servedTo s with ⟨-, hidle⟩ | ⟨a, rest, t', -, hserve, hserved⟩
  · cases hidle.symm.trans ht
    exact hs
  · cases hserve.symm.trans ht
    exact hserved.legal ⟨hs.ecode_iff, hs.replies_narrow⟩

/-! ### A KEY that is not loaded (R22, 70_reset_and_hazards.md R221) -/

/-- `t` and `u` are the same state but for KEY, and in KEY too once a key is loaded. -/
def SameButUnloadedKey (t u : State) : Prop := u = { t with key := u.key } ∧ (t.kv = true → u.key = t.key)

theorem SameButUnloadedKey.refl (t : State) : SameButUnloadedKey t t := ⟨rfl, fun _ => rfl⟩

theorem SameButUnloadedKey.of_unloaded {t u : State} (hkv : t.kv = false) (h : u = { t with key := u.key }) :
    SameButUnloadedKey t u := ⟨h, by simp [hkv]⟩

/-- Once a key is loaded the two states are equal. -/
theorem SameButUnloadedKey.eq_of_loaded {t u : State} (h : SameButUnloadedKey t u) (hkv : t.kv = true) : u = t := by
  obtain ⟨hrest, hkey⟩ := h
  rw [hrest, hkey hkv]

/-- A command that needs no key and is not LDKEY writes a result that depends on no state. -/
theorem exec_of_needsKey_false {i : Instr} (h : i.needsKey = false) (hi : ∀ k, i ≠ .ldkey k) :
    ∃ n, ∃ r : Bits n, ∀ s, exec i s = finish r s := by
  cases i with
  | ldkey k => exact absurd rfl (hi k)
  | ip b => exact ⟨8, ipPerm Config.engine b, fun _ => rfl⟩
  | ipinv b => exact ⟨8, ipInvPerm Config.engine b, fun _ => rfl⟩
  | ep n => exact ⟨8, epExpand n, fun _ => rfl⟩
  | p4 n => exact ⟨4, p4Perm n, fun _ => rfl⟩
  | s0 n => exact ⟨2, sbox0 n, fun _ => rfl⟩
  | s1 n => exact ⟨2, sbox1 n, fun _ => rfl⟩
  | enc | dec | sk1 | sk2 | fk1 | fk2 => simp [Instr.needsKey] at h

/-- A key-dependent command with no key loaded raises KEY_NOT_LOADED, whatever the tables (60_exceptions.md R191). -/
theorem execIn_of_key_missing (c : WfConfig) {i : Instr} (hn : i.needsKey = true) {s : State} (hkv : s.kv = false) :
    execIn c i s = .next (s.raiseError .keyNotLoaded) := by
  rcases execIn_cases c i s with ⟨k, rfl, -⟩ | ⟨r, -, hk, -⟩ | ⟨-, -, h⟩
  · exact absurd hn (by simp [Instr.needsKey])
  · exact absurd (hk hn) (by simp [hkv])
  · exact h

/-- A command does the same under two keys that are not loaded: it loads its own key, fails, or writes a result that
depends on no state. -/
theorem exec_unloaded (i : Instr) {s : State} (hkv : s.kv = false) (k : Key) :
    ∃ t u, exec i s = .next t ∧ exec i { s with key := k } = .next u ∧ SameButUnloadedKey t u := by
  by_cases hl : ∃ l, i = .ldkey l
  · obtain ⟨l, rfl⟩ := hl
    exact ⟨s.loadKey l, s.loadKey l, rfl, rfl, .refl _⟩
  · rcases hn : i.needsKey with _ | _
    · obtain ⟨n, r, h⟩ := exec_of_needsKey_false hn fun l hi => hl ⟨l, hi⟩
      exact ⟨s.writeResult r, _, h s, h _, .of_unloaded hkv rfl⟩
    · rw [exec_eq_execIn, exec_eq_execIn]
      exact ⟨_, _, execIn_of_key_missing _ hn hkv, execIn_of_key_missing _ hn hkv, .of_unloaded hkv rfl⟩

/-- No read returns KEY. -/
theorem portRead_setKey (p : PortReg) (s : State) (k : Key) : portRead p { s with key := k } = portRead p s := by
  cases p <;> rfl

/-- A command word runs alike under two keys that are not loaded. -/
theorem commandStep_unloaded (w : Word) {s : State} (hkv : s.kv = false) (k : Key) :
    ∃ t u, commandStep exec w s = .next t ∧ commandStep exec w { s with key := k } = .next u ∧
      SameButUnloadedKey t u := by
  rcases hd : decode w with i | e
  · simpa only [commandStep_command exec hd] using exec_unloaded i hkv k
  · exact ⟨_, _, commandStep_rejected exec hd s, commandStep_rejected exec hd _, .of_unloaded hkv rfl⟩

/-- An access of the host is served alike under two keys that are not loaded. -/
theorem serve_exec_unloaded (a : HostAccess) {s : State} (hkv : s.kv = false) (k : Key) :
    ∃ t u, serve exec a s = .next t ∧ serve exec a { s with key := k } = .next u ∧ SameButUnloadedKey t u := by
  cases a with
  | reset => exact ⟨s.resetEngine, s.resetEngine, rfl, rfl, .refl _⟩
  | read p =>
    refine ⟨_, _, rfl, rfl, .of_unloaded hkv ?_⟩
    rw [portRead_setKey]
    rfl
  | write p w =>
    simp only [serve]
    cases portReg p with
    | cmd => exact commandStep_unloaded w hkv k
    | dout | status | reserved => exact ⟨_, _, rfl, rfl, .of_unloaded hkv rfl⟩

/-- A step ends alike under two keys that are not loaded. -/
theorem step_unloaded {s : State} (hkv : s.kv = false) (k : Key) :
    ∃ t u, step s = .next t ∧ step { s with key := k } = .next u ∧ SameButUnloadedKey t u := by
  rcases step_cases s with ⟨hp, hs⟩ | ⟨a, rest, hp, hs⟩
  · exact ⟨s, { s with key := k }, hs, stepWith_nil exec hp, .of_unloaded hkv rfl⟩
  · rw [hs, step, stepWith_cons exec (s := { s with key := k }) hp]
    exact serve_exec_unloaded a (s := s.setPending rest) hkv k

/-- One step keeps two states the same but for a KEY that is not loaded. -/
theorem step_sameButUnloadedKey (s u : State) (h : SameButUnloadedKey s u) :
    ∃ s' u', step s = .next s' ∧ step u = .next u' ∧ SameButUnloadedKey s' u' := by
  rcases hkv : s.kv with _ | _
  · obtain ⟨hu, -⟩ := h
    rw [hu]
    exact step_unloaded hkv u.key
  · obtain rfl := h.eq_of_loaded hkv
    obtain ⟨t, ht⟩ := step_completes u
    exact ⟨t, t, ht, ht, .refl t⟩

/-- Settles O35, by induction on the number of steps: `SameButUnloadedKey` relates the two runs all along. -/
theorem unloadedKeyNeverObserved : Obligations.UnloadedKeyNeverObserved := by
  unfold Obligations.UnloadedKeyNeverObserved
  intro n s k hkv
  exact run_related step_sameButUnloadedKey n (.of_unloaded hkv rfl)

/-! ### ERR and ECODE after an error (R26, R27, 60_exceptions.md R199) -/

/-- An error has been raised, the first with the code `c`, and the host has no reset pending. -/
def FailedWithoutReset (c : Bits 2) (s : State) : Prop :=
  s.err = true ∧ s.ecode = c ∧ HostAccess.reset ∉ s.pending

/-- Serving an access other than a reset, once a command has failed, keeps ERR at 1 and ECODE. -/
theorem ServedTo.err_ecode {a : HostAccess} {s t : State} (h : ServedTo a s t) (ha : a ≠ .reset)
    (herr : s.err = true) : t.err = true ∧ t.ecode = s.ecode := by
  cases h with
  | reset => exact absurd rfl ha
  | failed w e => exact ⟨rfl, by simp [nextEcode, herr]⟩
  | read | ignored | loaded | result => exact ⟨herr, rfl⟩

theorem step_failedWithoutReset (c : Bits 2) (s : State) (h : FailedWithoutReset c s) :
    ∃ t, step s = .next t ∧ FailedWithoutReset c t := by
  rcases step_servedTo s with ⟨-, hidle⟩ | ⟨a, rest, t, hp, ht, hserved⟩
  · exact ⟨s, hidle, h⟩
  · obtain ⟨herr, hcode, hreset⟩ := h
    simp only [hp, List.mem_cons, not_or] at hreset
    obtain ⟨ha, hrest⟩ := hreset
    obtain ⟨herr', hcode'⟩ := hserved.err_ecode (Ne.symm ha) herr
    exact ⟨t, ht, herr', hcode'.trans hcode, by rwa [hserved.pending_eq]⟩

/-- Settles O29: `FailedWithoutReset` holds all along the run. -/
theorem firstErrorKeptUntilReset : Obligations.FirstErrorKeptUntilReset := by
  unfold Obligations.FirstErrorKeptUntilReset
  intro n s herr hreset
  obtain ⟨t, ht, herr', hcode, -⟩ := run_keeps (step_failedWithoutReset s.ecode) n ⟨herr, rfl, hreset⟩
  exact ⟨t, ht, herr', hcode⟩

/-! ### Who writes KV, KEY and DOUT (R22, R23, R25) -/

/-- Settles O30: of the accesses only a reset clears KV, and only a write of LDKEY sets it. -/
theorem kvSetByLdkeyClearedByReset : Obligations.KvSetByLdkeyClearedByReset := by
  unfold Obligations.KvSetByLdkeyClearedByReset
  intro a s t h
  cases servedTo_of_hostDoes h with
  | reset => exact ⟨fun _ _ => rfl, by simp⟩
  | loaded s hd => exact ⟨by simp, fun _ _ => ⟨_, _, rfl, hd, rfl⟩⟩
  | read | ignored | failed | result => constructor <;> simp +contextual

/-- Settles O31: of the accesses only a reset and a write of LDKEY change KEY. -/
theorem keyWrittenOnlyByLdkey : Obligations.KeyWrittenOnlyByLdkey := by
  unfold Obligations.KeyWrittenOnlyByLdkey
  intro a s t h hkey
  cases servedTo_of_hostDoes h with
  | reset => exact .inl rfl
  | loaded s hd => exact .inr ⟨_, _, rfl, hd, rfl, rfl⟩
  | read | ignored | failed | result => exact absurd rfl hkey

/-- Settles O32: of the accesses only a reset and a command that writes a result change DOUT. -/
theorem doutWrittenOnlyBySuccess : Obligations.DoutWrittenOnlyBySuccess := by
  unfold Obligations.DoutWrittenOnlyBySuccess
  intro a s t h hdout
  cases servedTo_of_hostDoes h with
  | reset => exact .inl ⟨rfl, rfl⟩
  | result r hd hi hk => exact .inr ⟨_, _, rfl, hd, hi, hk, rfl⟩
  | read | ignored | failed | loaded => exact absurd rfl hdout

/-! ### The open tables (R30) -/

/-- Under two configurations a command takes the same branch: LDKEY does not read them, the failure depends on KV alone,
and a result goes to DOUT. -/
theorem execIn_eq_but_dout (c d : WfConfig) (i : Instr) (s : State) :
    ∃ t u, execIn c i s = .next t ∧ execIn d i s = .next u ∧ u = { t with dout := u.dout } := by
  rcases execIn_cases c i s with ⟨k, rfl, hc⟩ | ⟨r, hi, hk, hc⟩ | ⟨hn, hkv, hc⟩
  · exact ⟨_, _, hc, rfl, rfl⟩
  · rcases execIn_cases d i s with ⟨k, rfl, -⟩ | ⟨r', -, -, hd⟩ | ⟨hn, hkv, -⟩
    · exact absurd rfl (hi k)
    · exact ⟨_, _, hc, hd, rfl⟩
    · exact absurd (hk hn) (by simp [hkv])
  · exact ⟨_, _, hc, execIn_of_key_missing d hn hkv, rfl⟩

/-- Serving an access under two configurations leaves the same state but for DOUT: only a command word reads them. -/
theorem serve_execIn_eq_but_dout (c d : WfConfig) (a : HostAccess) (s : State) :
    ∃ t u, serve (execIn c) a s = .next t ∧ serve (execIn d) a s = .next u ∧ u = { t with dout := u.dout } := by
  cases a with
  | reset => exact ⟨_, _, rfl, rfl, rfl⟩
  | read p => exact ⟨_, _, rfl, rfl, rfl⟩
  | write p w =>
    simp only [serve]
    cases portReg p with
    | cmd =>
      rcases hd : decode w with i | e
      · simpa only [portWrite, commandStep_command _ hd] using execIn_eq_but_dout c d i s
      · exact ⟨_, _, commandStep_rejected _ hd s, commandStep_rejected _ hd s, rfl⟩
    | dout | status | reserved => exact ⟨_, _, rfl, rfl, rfl⟩

/-- Settles O36: an idle step reads no table, and serving an access bears their mark on DOUT alone. -/
theorem tablesAffectOnlyDout : Obligations.TablesAffectOnlyDout := by
  unfold Obligations.TablesAffectOnlyDout
  intro c d s
  rcases hp : s.pending with _ | ⟨a, rest⟩
  · exact ⟨s, s, stepWith_nil _ hp, stepWith_nil _ hp, rfl⟩
  · rw [stepIn, stepIn, stepWith_cons _ hp, stepWith_cons _ hp]
    exact serve_execIn_eq_but_dout c d a _

/-! ### The bits of STATUS (R24, R28) -/

/-- The bits of STATUS on the bus. -/
theorem statusWord_bits (s : State) :
    (zext16 (statusWord s)).getLsbD 0 = s.kv ∧ (zext16 (statusWord s)).getLsbD 1 = s.err ∧
    (zext16 (statusWord s)).extractLsb' 2 2 = s.ecode ∧ (zext16 (statusWord s)).extractLsb' 4 4 = 0#4 ∧
    (zext16 (statusWord s)).extractLsb' 8 8 = 0#8 := by
  unfold statusWord zext16
  generalize s.kv = k, s.err = e, s.ecode = c
  revert k e c
  decide

/-- Settles O10: a read of address 2 returns the STATUS byte with zeros in front. -/
theorem statusBitsAsRead : Obligations.StatusBitsAsRead := by
  unfold Obligations.StatusBitsAsRead
  intro s
  exact ⟨zext16 (statusWord s), rfl, statusWord_bits s⟩

end Sys2Proof.Machine

/-! The host port (20_memory.md): what reads return, written out with zeros in front of a byte register (R41); a quiet
access and a run of them, which only reply (R42, R43); and a command with the read after it (R48). -/

namespace Sys2Proof.Machine

/-- A byte register stands on the bus below eight zeros. -/
theorem zext16_eq_append (v : Byte) : zext16 v = 0#8 ++ v := by
  rw [zext16, BitVec.setWidth_eq_append (by decide)]
  rfl

/-- The port has four addresses. -/
theorem portAddr_cases (p : Bits 2) : p = addrCmd ∨ p = addrDout ∨ p = addrStatus ∨ p = 3#2 := by
  revert p
  decide

/-- What a read returns, as `quietReply` writes it out. -/
theorem quietReply_read (s : State) (p : Bits 2) : quietReply s (.read p) = [portRead (portReg p) s] := by
  rcases portAddr_cases p with rfl | rfl | rfl | rfl
  · rfl
  · exact congrArg ([·]) (zext16_eq_append s.dout).symm
  · exact congrArg ([·]) (zext16_eq_append (statusWord s)).symm
  · rfl

/-- What quiet accesses return depends on the registers alone. -/
theorem quietReply_setOutside (s : State) (l : List HostAccess) (r : List Word) :
    quietReply { s with pending := l, replies := r } = quietReply s := by
  funext a
  cases a <;> rfl

/-- A quiet access only replies. -/
theorem ServedTo.eq_of_quiet {a : HostAccess} {s t : State} (h : ServedTo a s t) (ha : quiet a = true) :
    t = { s with replies := s.replies ++ quietReply s a } := by
  cases h with
  | read p => rw [quietReply_read]; rfl
  | ignored => simp [quietReply]
  | reset | failed | loaded | result => simp [quiet, addrCmd] at ha

theorem hostDoes_quiet {a : HostAccess} (ha : quiet a = true) (s : State) :
    hostDoes a s = .next { s with replies := s.replies ++ quietReply s a } := by
  obtain ⟨t, ht, hserved⟩ := serve_exec_servedTo a s
  rw [hostDoes_eq_serve, ht, hserved.eq_of_quiet ha]

/-- Settles O11, by induction on the accesses: each only replies, and leaves the registers the next ones read. -/
theorem quietAccessesOnlyReply : Obligations.QuietAccessesOnlyReply := by
  unfold Obligations.QuietAccessesOnlyReply
  intro l rest s hl
  induction l generalizing s with
  | nil => simp [Host.Core.run]
  | cons a l ih =>
    obtain ⟨ha, hl⟩ := List.forall_mem_cons.mp hl
    have hstep := hostDoes_quiet ha { s with pending := l ++ rest }
    have hrun := ih { s with replies := s.replies ++ quietReply s a } hl
    rw [quietReply_setOutside s s.pending] at hrun
    rw [List.flatMap_cons, ← List.append_assoc]
    exact (run_succ hstep l.length).trans hrun

/-- Serving a write returns nothing to the host. -/
theorem ServedTo.replies_of_write {p : Bits 2} {w : Word} {s t : State} (h : ServedTo (.write p w) s t) :
    t.replies = s.replies := by
  cases h <;> rfl

/-- Settles O12: the command leaves the read pending and the replies alone, and the read is a run of one quiet access. -/
theorem readAfterCommandSeesItsResult : Obligations.ReadAfterCommandSeesItsResult := by
  unfold Obligations.ReadAfterCommandSeesItsResult
  intro w rest s
  obtain ⟨t, ht, hserved⟩ := serve_exec_servedTo (.write addrCmd w) { s with pending := .read 1#2 :: rest }
  have hcommand : step { s with pending := .write 0#2 w :: .read 1#2 :: rest } = .next t := ht
  have hpending : t.setPending ([.read 1#2] ++ rest) = t := congrArg (t.setPending ·) hserved.pending_eq.symm
  refine ⟨t, ht, ?_⟩
  calc Host.Core.run core 2 { s with pending := .write 0#2 w :: .read 1#2 :: rest }
      = Host.Core.run core 1 t := run_succ hcommand 1
    _ = Host.Core.run core 1 (t.setPending ([.read 1#2] ++ rest)) := by rw [hpending]
    _ = .next { t with pending := rest, replies := t.replies ++ [0#8 ++ t.dout] } :=
        quietAccessesOnlyReply [.read 1#2] rest t (by simp [quiet])
    _ = .next { t with pending := rest, replies := s.replies ++ [0#8 ++ t.dout] } := by
        rw [hserved.replies_of_write]

/-- Settles O6: the step serves the write, which runs the word's command. -/
theorem stepRunsDecodedCommand : Obligations.StepRunsDecodedCommand := by
  unfold Obligations.StepRunsDecodedCommand
  intro s w rest i hp hd
  calc step s = serve exec (.write addrCmd w) (s.setPending rest) := stepWith_cons exec hp
    _ = commandStep exec w (s.setPending rest) := rfl
    _ = exec i (s.setPending rest) := commandStep_command exec hd _

/-- Settles O9: every access but the CMD write is quiet, and that one runs the command step. -/
theorem portRegisterMap : Obligations.PortRegisterMap := by
  unfold Obligations.PortRegisterMap
  intro s w
  have hread (p : Bits 2) : hostDoes (.read p) s = .next { s with replies := s.replies ++ quietReply s (.read p) } :=
    hostDoes_quiet rfl s
  have hignored (p : Bits 2) (hp : p ≠ 0#2) : hostDoes (.write p w) s = .next s := by
    simpa [quietReply] using hostDoes_quiet (a := .write p w) (decide_eq_true hp) s
  exact ⟨hread 0#2, hread 1#2, hread 2#2, hread 3#2, rfl, hignored 1#2 (by decide), hignored 2#2 (by decide),
    hignored 3#2 (by decide)⟩

end Sys2Proof.Machine

/-! Words and commands (30_encoding.md): a word of three fields is determined by them, so a command's word is the one
word with that command's fields (R61 to R66), and decoding and encoding are inverse to each other. -/

namespace Sys2Proof

/-- A vector is three vectors in a row exactly when they are its fields. -/
theorem append_append_eq_iff {a b c : Nat} (x : Bits a) (r : Bits b) (v : Bits c) (w : Bits (a + b + c)) :
    x ++ r ++ v = w ↔
      w.extractLsb' (b + c) a = x ∧ w.extractLsb' c b = r ∧ w.extractLsb' 0 c = v := by
  constructor
  · rintro rfl
    refine ⟨?_, ?_, BitVec.extractLsb'_append_eq_right⟩
    · rw [BitVec.extractLsb'_append_eq_of_le (by omega), Nat.add_sub_cancel, BitVec.extractLsb'_append_eq_left]
    · rw [BitVec.extractLsb'_append_eq_of_le (by omega), Nat.sub_self, BitVec.extractLsb'_append_eq_right]
  · rintro ⟨rfl, rfl, rfl⟩
    rw [BitVec.extractLsb'_append_extractLsb'_eq_extractLsb' (Nat.add_comm b c),
      BitVec.extractLsb'_append_extractLsb'_eq_extractLsb' (Nat.zero_add c).symm, BitVec.extractLsb'_eq_self]

theorem wordFK_eq_iff (op : Bits 4) (k : Key) (w : Word) :
    wordFK op k = w ↔ opField w = op ∧ w.extractLsb' 10 2 = 0#2 ∧ w.extractLsb' 0 10 = k :=
  append_append_eq_iff op 0#2 k w

theorem wordFB_eq_iff (op : Bits 4) (b : Byte) (w : Word) :
    wordFB op b = w ↔ opField w = op ∧ w.extractLsb' 8 4 = 0#4 ∧ w.extractLsb' 0 8 = b :=
  append_append_eq_iff op 0#4 b w

theorem wordFN_eq_iff (op : Bits 4) (n : Nibble) (w : Word) :
    wordFN op n = w ↔ opField w = op ∧ w.extractLsb' 4 8 = 0#8 ∧ w.extractLsb' 0 4 = n :=
  append_append_eq_iff op 0#8 n w

/-- Format FZ has no operand: its reserved field is all that stands below the opcode. -/
theorem wordFZ_eq_iff (op : Bits 4) (w : Word) :
    wordFZ op = w ↔ opField w = op ∧ w.extractLsb' 0 12 = 0#12 := by
  constructor
  · rintro rfl
    exact ⟨BitVec.extractLsb'_append_eq_left, BitVec.extractLsb'_append_eq_right⟩
  · rintro ⟨rfl, hr⟩
    rw [wordFZ, ← hr]
    exact (word_eq_opField_append w).symm

/-- The word of a command is the one word with that command's fields (R61 to R66). -/
theorem encode_eq_iff_wordFits (i : Instr) (w : Word) : encode i = w ↔ WordFits w i := by
  cases i with
  | ldkey k => exact wordFK_eq_iff 0x1#4 k w
  | enc b => exact wordFB_eq_iff 0x2#4 b w
  | dec b => exact wordFB_eq_iff 0x3#4 b w
  | ip b => exact wordFB_eq_iff 0x4#4 b w
  | ipinv b => exact wordFB_eq_iff 0x5#4 b w
  | ep n => exact wordFN_eq_iff 0x6#4 n w
  | p4 n => exact wordFN_eq_iff 0x7#4 n w
  | s0 n => exact wordFN_eq_iff 0x8#4 n w
  | s1 n => exact wordFN_eq_iff 0x9#4 n w
  | sk1 => exact wordFZ_eq_iff 0xA#4 w
  | sk2 => exact wordFZ_eq_iff 0xB#4 w
  | fk1 b => exact wordFB_eq_iff 0xC#4 b w
  | fk2 b => exact wordFB_eq_iff 0xD#4 b w

/-- Decoding inverts encoding and nothing else: a word decodes to a command exactly when it is that command's word. -/
theorem decode_eq_command_iff_encode_eq (w : Word) (i : Instr) : decode w = .command i ↔ encode i = w :=
  (decode_eq_command_iff w i).trans (encode_eq_iff_wordFits i w).symm

@[simp] theorem decode_encode (i : Instr) : decode (encode i) = .command i :=
  (decode_eq_command_iff_encode_eq (encode i) i).mpr rfl

/-- Settles O1: a command's word has that command's fields. -/
theorem decodeOfEncode : Obligations.DecodeOfEncode := by
  unfold Obligations.DecodeOfEncode
  exact decode_encode

/-- Settles O2: the fields of a word that decodes to a command leave no bit of it open. -/
theorem encodeOfDecode : Obligations.EncodeOfDecode := by
  unfold Obligations.EncodeOfDecode
  intro w i h
  exact (decode_eq_command_iff_encode_eq w i).mp h

/-- Settles O3: each word, written out, is the encoding of its command. -/
theorem writtenOutWordsDecode : Obligations.WrittenOutWordsDecode := by
  unfold Obligations.WrittenOutWordsDecode
  exact ⟨decode_encode (.ldkey 0b1010000010#10), decode_encode (.enc 0x97#8), decode_encode (.ip 0x97#8),
    decode_encode (.ep 0b1010#4), decode_encode (.s0 0b1011#4), decode_encode .sk2, decode_encode (.fk1 0x5D#8)⟩

/-- Element `i` of an operand field of any width is its word bit `n-1-i` (R65). -/
theorem getMsbD_operandField (w : Word) {n i : Nat} (hi : i < n) :
    (w.extractLsb' 0 n).getMsbD i = w.getLsbD (n - 1 - i) := by
  have hbit : n - 1 - i < n := by omega
  simp [BitVec.getMsbD_eq_getLsbD, hi, hbit]

/-- Settles O4: the operand of a word that decodes to a command is its operand field. -/
theorem operandElementsAreWordBits : Obligations.OperandElementsAreWordBits := by
  unfold Obligations.OperandElementsAreWordBits
  intro w
  simp only [List.mem_cons, List.not_mem_nil, or_false, decode_eq_command_iff]
  refine ⟨fun k hk i => ?key, fun b hb i => ?byte, fun n hn i => ?nibble⟩
  case key =>
    obtain ⟨-, -, rfl⟩ := hk
    exact getMsbD_operandField w i.isLt
  case byte =>
    obtain ⟨-, -, rfl⟩ | ⟨-, -, rfl⟩ | ⟨-, -, rfl⟩ | ⟨-, -, rfl⟩ | ⟨-, -, rfl⟩ | ⟨-, -, rfl⟩ := hb
    all_goals exact getMsbD_operandField w i.isLt
  case nibble =>
    obtain ⟨-, -, rfl⟩ | ⟨-, -, rfl⟩ | ⟨-, -, rfl⟩ | ⟨-, -, rfl⟩ := hn
    all_goals exact getMsbD_operandField w i.isLt

namespace Machine

/-- A table row of 16 bits is its word. -/
@[simp] theorem tableWord_toNat (w : Word) : tableWord 16 w.toNat = w := by
  simp [tableWord, Nat.mod_eq_of_lt w.isLt]

/-- Settles O7: the placed word is the CMD write that the step serves, and it decodes to its command. -/
theorem fetchedEncodingRuns : Obligations.FetchedEncodingRuns := by
  unfold Obligations.FetchedEncodingRuns
  intro i s
  rw [State.withFetchWord, tableWord_toNat]
  exact stepRunsDecodedCommand _ (encode i) s.pending i rfl (decode_encode i)

/-- Settles O8: an idle step leaves the empty list, and serving an access leaves the accesses after it. -/
theorem everyStepCompletes : Obligations.EveryStepCompletes := by
  unfold Obligations.EveryStepCompletes
  intro s
  rcases step_servedTo s with ⟨hp, hidle⟩ | ⟨a, rest, t, hp, ht, hserved⟩
  · exact ⟨s, hidle, by rw [hp, List.tail_nil]⟩
  · exact ⟨t, ht, by rw [hserved.pending_eq, hp, List.tail_cons, State.setPending_pending]⟩

end Machine
end Sys2Proof

/-! The assembler on binary operands (R70): the digits of a vector denote its value, so they are read back as that
vector; a mnemonic, a space and an operand are two tokens; and each operand-taking mnemonic is one of `IsMnemonic`. -/

namespace Sys2Proof

/-- The first `m` digits of a vector denote its value shifted right by the other digits. -/
theorem Literal.value_bin_take {n : Nat} (v : Bits n) {m : Nat} (hm : m ≤ n) :
    (Literal.bin ((List.range m).map v.getMsbD)).value = v.toNat >>> (n - m) := by
  induction m with
  | zero => simp [Literal.value, Nat.shiftRight_eq_zero v.toNat n v.isLt]
  | succ m ih =>
    have hshift : n - m = n - (m + 1) + 1 := by omega
    have hdigit : (v.getMsbD m).toNat = v.toNat >>> (n - (m + 1)) % 2 := by
      simp [BitVec.getMsbD_eq_getLsbD, Nat.lt_of_succ_le hm, BitVec.getLsbD, Nat.toNat_testBit,
        Nat.shiftRight_eq_div_pow, Nat.sub_sub, Nat.add_comm 1 m]
    calc (Literal.bin ((List.range (m + 1)).map v.getMsbD)).value
        = 2 * (Literal.bin ((List.range m).map v.getMsbD)).value + (v.getMsbD m).toNat := by
          simp [Literal.value, List.range_succ]
      _ = 2 * (v.toNat >>> (n - (m + 1)) / 2) + v.toNat >>> (n - (m + 1)) % 2 := by
          rw [ih (Nat.le_of_succ_le hm), hdigit, hshift, Nat.shiftRight_succ]
      _ = v.toNat >>> (n - (m + 1)) := Nat.div_add_mod _ 2

/-- The digits of a vector, index 0 first, denote its value. -/
theorem Literal.value_bin_elements {n : Nat} (v : Bits n) :
    (Literal.bin ((List.range n).map v.getMsbD)).value = v.toNat := by
  simpa using Literal.value_bin_take v (Nat.le_refl n)

namespace Machine

theorem digits?_binaryDigits {n : Nat} (v : Bits n) :
    digits? binDigit? (binaryDigits v) = some ((List.range n).map v.getMsbD) := by
  unfold binaryDigits
  induction List.range n with
  | nil => rfl
  | cons i is ih => cases h : v.getMsbD i <;> simp [digits?, binDigit?, h, ih]

/-- Binary digits as many as an operand form asks for are read as the vector they write. -/
theorem operand?_binaryDigits {form : OperandForm} {n : Nat}
    (hfits : ∀ ds, (Literal.bin ds).fits form = (ds.length == n)) (v : Bits n) :
    operand? form ('0' :: 'b' :: binaryDigits v) = some v.toNat := by
  simp [operand?, literal?, digits?_binaryDigits, hfits, Literal.value_bin_elements]

/-- A character that neither ends a token nor starts a comment. -/
def isPlain (c : Char) : Bool := !(c == ';' || isBlank c || c == ',')

theorem tokenize_cons_of_isPlain {c : Char} (hc : isPlain c = true) (cs : List Char) (cur : Token) :
    tokenize (c :: cs) cur = tokenize cs (cur ++ [c]) := by
  simp only [isPlain, Bool.not_eq_true', Bool.or_eq_false_iff] at hc
  obtain ⟨⟨hsemi, hblank⟩, hcomma⟩ := hc
  simp [tokenize, hsemi, hblank, hcomma]

/-- A run of plain characters goes to the token being read. -/
theorem tokenize_append_of_isPlain {t : List Char} (ht : ∀ c ∈ t, isPlain c = true) (rest : List Char) (cur : Token) :
    tokenize (t ++ rest) cur = tokenize rest (cur ++ t) := by
  induction t generalizing cur with
  | nil => simp
  | cons c cs ih =>
    obtain ⟨hc, hcs⟩ := List.forall_mem_cons.mp ht
    rw [List.cons_append, tokenize_cons_of_isPlain hc, ih hcs, List.append_assoc, List.singleton_append]

/-- Two words with a space between them are two tokens. -/
theorem tokenize_two_words {m t : Token} (hm : ∀ c ∈ m, isPlain c = true) (ht : ∀ c ∈ t, isPlain c = true)
    (hm0 : m ≠ []) (ht0 : t ≠ []) : tokenize (m ++ ' ' :: t) [] = [m, t] := by
  have hlast : tokenize t [] = [t] := by
    simpa [tokenize, flushToken, ht0] using tokenize_append_of_isPlain ht [] []
  rw [tokenize_append_of_isPlain hm]
  simp [tokenize, isBlank, flushToken, hlast, hm0]

theorem isPlain_of_mem_binaryOperand {n : Nat} (v : Bits n) :
    ∀ c ∈ '0' :: 'b' :: binaryDigits v, isPlain c = true := by
  have hdigit : ∀ c ∈ binaryDigits v, isPlain c = true := by
    intro c hc
    obtain ⟨i, -, rfl⟩ := List.mem_map.mp hc
    cases v.getMsbD i <;> rfl
  exact List.forall_mem_cons.mpr ⟨rfl, List.forall_mem_cons.mpr ⟨rfl, hdigit⟩⟩

/-- `m` is the mnemonic of the commands `mk v`, whose operand has `n` bits and is written in the form `form` (R66, R70). -/
structure IsMnemonic (m : Token) (form : OperandForm) {n : Nat} (mk : Bits n → Instr) : Prop where
  plain : ∀ c ∈ m, isPlain c = true
  nonempty : m ≠ []
  assembles : ∀ t, assembleTokens [m, t] =
    (operand? form t).map fun v => [.write addrCmd (encode (mk (BitVec.ofNat n v)))]
  fits : ∀ ds, (Literal.bin ds).fits form = (ds.length == n)

/-- A line of a mnemonic and its operand in binary, with or without a comment, is the write of the command's word. -/
theorem IsMnemonic.assemblesTo_binary {m : Token} {form : OperandForm} {n : Nat} {mk : Bits n → Instr}
    (h : IsMnemonic m form mk) (v : Bits n) : assemblesTo (m ++ " 0b".toList ++ binaryDigits v) (mk v) := by
  have hline : assembleLine (m ++ " 0b".toList ++ binaryDigits v) = some [.write addrCmd (encode (mk v))] := by
    calc assembleLine (m ++ " 0b".toList ++ binaryDigits v)
        = assembleTokens (tokenize (m ++ ' ' :: '0' :: 'b' :: binaryDigits v) []) := by
          rw [List.append_assoc]
          rfl
      _ = assembleTokens [m, '0' :: 'b' :: binaryDigits v] := by
          rw [tokenize_two_words h.plain (isPlain_of_mem_binaryOperand v) h.nonempty (List.cons_ne_nil _ _)]
      _ = some [.write addrCmd (encode (mk v))] := by
          rw [h.assembles, operand?_binaryDigits h.fits, Option.map_some, BitVec.ofNat_toNat, BitVec.setWidth_eq]
  exact ⟨hline, fun comment => (assembleLine_comment _ comment).trans hline⟩

theorem isMnemonic_key : IsMnemonic "LDKEY".toList .key Instr.ldkey :=
  ⟨by simp [isPlain, isBlank], by simp, fun _ => rfl, fun _ => rfl⟩

theorem isMnemonic_byte : ∀ p ∈ [("ENC", Instr.enc), ("DEC", .dec), ("IP", .ip), ("IPINV", .ipinv), ("FK1", .fk1),
    ("FK2", .fk2)], IsMnemonic p.1.toList .byte p.2 := by
  simp only [List.forall_mem_cons]
  refine ⟨?_, ?_, ?_, ?_, ?_, ?_, by simp⟩
  all_goals exact ⟨by simp [isPlain, isBlank], by simp, fun _ => rfl, fun _ => rfl⟩

theorem isMnemonic_nibble : ∀ p ∈ [("EP", Instr.ep), ("P4", .p4), ("S0", .s0), ("S1", .s1)],
    IsMnemonic p.1.toList .nibble p.2 := by
  simp only [List.forall_mem_cons]
  refine ⟨?_, ?_, ?_, ?_, by simp⟩
  all_goals exact ⟨by simp [isPlain, isBlank], by simp, fun _ => rfl, fun _ => rfl⟩

/-- Settles O55: each mnemonic is one of `IsMnemonic`, for the commands and the operand form of its format. -/
theorem binaryOperandsAssemble : Obligations.BinaryOperandsAssemble := by
  unfold Obligations.BinaryOperandsAssemble
  exact ⟨isMnemonic_key.assemblesTo_binary, fun b p hp => (isMnemonic_byte p hp).assemblesTo_binary b,
    fun n p hp => (isMnemonic_nibble p hp).assemblesTo_binary n⟩

end Machine
end Sys2Proof

/-! A word written to CMD (30_encoding.md R60 to R69): it runs the command whose fields it has, and fails with
RESERVED_NONZERO where its reserved field is not zero (R68); a result of eight bits is DOUT (R73). -/

namespace Sys2Proof

/-- A word masked to its two upper fields is an opcode above zeros exactly when these fields are that opcode and zero:
the patterns "w & mask = match" of R66. -/
theorem and_mask_eq_iff {a b c : Nat} (x : Bits a) (w : Bits (a + b + c)) :
    w &&& (BitVec.allOnes a ++ BitVec.allOnes b ++ 0#c) = x ++ 0#b ++ 0#c ↔
      w.extractLsb' (b + c) a = x ∧ w.extractLsb' c b = 0#b := by
  obtain ⟨hop, hreserved, hoperand⟩ := (append_append_eq_iff (BitVec.allOnes a) (BitVec.allOnes b) 0#c _).mp rfl
  rw [eq_comm, append_append_eq_iff, BitVec.extractLsb'_and, BitVec.extractLsb'_and, BitVec.extractLsb'_and, hop,
    hreserved, hoperand]
  simp

/-- Format FB: the mask 0xFF00 keeps the opcode and the reserved field (R62). -/
theorem maskFB_eq_iff (op : Bits 4) (w : Word) :
    w &&& 0xFF00#16 = op ++ 0#4 ++ 0#8 ↔ opField w = op ∧ w.extractLsb' 8 4 = 0#4 :=
  and_mask_eq_iff (b := 4) (c := 8) op w

/-- Format FN: the mask 0xFFF0 keeps the opcode and the reserved field (R63). -/
theorem maskFN_eq_iff (op : Bits 4) (w : Word) :
    w &&& 0xFFF0#16 = op ++ 0#8 ++ 0#4 ↔ opField w = op ∧ w.extractLsb' 4 8 = 0#8 :=
  and_mask_eq_iff (b := 8) (c := 4) op w

/-- R68 for the opcodes of format FB. -/
theorem decode_reservedFB {w : Word} (hop : opField w ∈ [0x2#4, 0x3#4, 0x4#4, 0x5#4, 0xC#4, 0xD#4])
    (hr : w.extractLsb' 8 4 ≠ 0#4) : decode w = .rejected .reservedNonzero := by
  simp only [List.mem_cons, List.not_mem_nil, or_false] at hop
  rcases hop with h | h | h | h | h | h <;> simp [decode, h, decodeFB, hr]

/-- R68 for the opcodes of format FN. -/
theorem decode_reservedFN {w : Word} (hop : opField w ∈ [0x6#4, 0x7#4, 0x8#4, 0x9#4])
    (hr : w.extractLsb' 4 8 ≠ 0#8) : decode w = .rejected .reservedNonzero := by
  simp only [List.mem_cons, List.not_mem_nil, or_false] at hop
  rcases hop with h | h | h | h <;> simp [decode, h, decodeFN, hr]

namespace Machine

theorem cmdWrite_of_wordFits {w : Word} {i : Instr} (h : WordFits w i) (s : State) : cmdWrite w s = exec i s :=
  commandStep_command exec ((decode_eq_command_iff w i).mpr h) s

theorem cmdWrite_of_rejected {w : Word} {e : CmdError} (h : decode w = .rejected e) (s : State) :
    cmdWrite w s = .next (failedWith (errorCode e) s) :=
  commandStep_rejected exec h s

/-- A word of format FB whose reserved field is not zero fails with code 10. -/
theorem cmdWrite_reservedFB {w : Word} {op : Bits 4} (hop : opField w = op)
    (hfb : op ∈ [0x2#4, 0x3#4, 0x4#4, 0x5#4, 0xC#4, 0xD#4]) (hr : w.extractLsb' 8 4 ≠ 0#4) (s : State) :
    cmdWrite w s = .next (failedWith 0b10#2 s) :=
  cmdWrite_of_rejected (decode_reservedFB (hop ▸ hfb) hr) s

/-- A word of format FN whose reserved field is not zero fails with code 10. -/
theorem cmdWrite_reservedFN {w : Word} {op : Bits 4} (hop : opField w = op)
    (hfn : op ∈ [0x6#4, 0x7#4, 0x8#4, 0x9#4]) (hr : w.extractLsb' 4 8 ≠ 0#8) (s : State) :
    cmdWrite w s = .next (failedWith 0b10#2 s) :=
  cmdWrite_of_rejected (decode_reservedFN (hop ▸ hfn) hr) s

/-- A result of eight bits goes to DOUT as it is. -/
theorem finish_byte (r : Byte) (s : State) : finish r s = .next { s with dout := r } := by
  rw [finish, State.writeResult, zext8_byte]

end Machine
end Sys2Proof

/-! The bit-permutation unit (40_permutation_unit.md): the elements of a selection and the number of its ones; IP and
IP⁻¹ through the open tables, inverse to each other (R86, R88, R89); EP and P4 (R87); the commands (R90 to R92). -/

namespace Sys2Proof.Machine

theorem getMsbD_permuteSelect {n m : Nat} (v : Bits n) (T : Vector (Fin n) m) {i : Nat} (hi : i < m) :
    (permuteSelect v T).getMsbD i = v.getMsbD (T.get ⟨i, hi⟩).val :=
  getMsbD_bitsOfFn _ i hi

/-- Settles O40: a selection is the vector made from the elements it selects. -/
theorem permuteSelectElements : Obligations.PermuteSelectElements := by
  unfold Obligations.PermuteSelectElements
  intro n m v T i
  exact getMsbD_permuteSelect v T i.isLt

theorem permuteSelect_zero {n m : Nat} (T : Vector (Fin n) m) : permuteSelect (0#n) T = 0#m :=
  eq_of_elements fun i hi => by simp [getMsbD_permuteSelect _ _ hi]

theorem permuteSelect_allOnes {n m : Nat} (T : Vector (Fin n) m) :
    permuteSelect (BitVec.allOnes n) T = BitVec.allOnes m :=
  eq_of_elements fun i hi => by simp [getMsbD_permuteSelect _ _ hi, BitVec.getMsbD_allOnes, hi]

theorem ones_eq_countP_finRange {n : Nat} (v : Bits n) :
    ones v = (List.finRange n).countP fun i => v.getMsbD i.val := by
  rw [ones, ← List.map_coe_finRange_eq_range, List.countP_map]
  rfl

/-- A selection has a one for each entry of its table that selects a one. -/
theorem ones_permuteSelect {n m : Nat} (v : Bits n) (T : Vector (Fin n) m) :
    ones (permuteSelect v T) = T.toList.countP fun j => v.getMsbD j.val := by
  have hT : T.toList = (List.finRange m).map T.get := by
    apply List.ext_getElem <;> simp [Vector.get]
  rw [ones_eq_countP_finRange, hT, List.countP_map]
  exact List.countP_congr fun i _ => by simp [getMsbD_permuteSelect v T i.isLt]

/-! ### IP and IP⁻¹ -/

theorem getMsbD_ipPerm (c : WfConfig) (x : Byte) {i : Nat} (hi : i < 8) :
    (ipPerm c x).getMsbD i = x.getMsbD (c.raw.pIp.getD i 8) := by
  have hlen : i < c.raw.pIp.length := c.pIp_length ▸ hi
  rw [ipPerm, getMsbD_permuteSelect x c.ip hi, WfConfig.ip, get_tableOf, List.getD_eq_getElem _ _ hlen]

theorem getMsbD_ipInvPerm (c : WfConfig) (y : Byte) {i : Nat} (hi : i < 8) :
    (ipInvPerm c y).getMsbD i = y.getMsbD (c.raw.pIpInv.getD i 8) := by
  have hlen : i < c.raw.pIpInv.length := c.pIpInv_length ▸ hi
  rw [ipInvPerm, getMsbD_permuteSelect y c.ipInv hi, WfConfig.ipInv, get_tableOf, List.getD_eq_getElem _ _ hlen]

/-- Settles O41: the entries of the tables are those of the configuration; under REFCFG they are R9's list. -/
theorem ipSelectsThroughTables : Obligations.IpSelectsThroughTables := by
  unfold Obligations.IpSelectsThroughTables
  refine ⟨fun c x i => ⟨getMsbD_ipPerm c x i.isLt, getMsbD_ipInvPerm c x i.isLt⟩, fun x i => ?_⟩
  calc (ipPerm .refCfg x).getMsbD i.val
      = x.getMsbD (SdesConfig.refCfg.pIp.getD i.val 8) := getMsbD_ipPerm .refCfg x i.isLt
    _ = (SdesConfig.refCfg.pIp.map x.getMsbD).getD i.val (x.getMsbD 8) := (List.getD_map ..).symm

/-- IP⁻¹ undoes IP, as `P_IP[P_IPINV[i]] = i` (R88, R89). -/
theorem ipInvPerm_ipPerm (c : WfConfig) (x : Byte) : ipInvPerm c (ipPerm c x) = x := by
  apply eq_of_elements
  intro i hi
  obtain ⟨j, hinv, hip⟩ := Option.bind_eq_some_iff.mp (c.pIp_pIpInv i hi)
  have hj : j < 8 := c.pIpInv_lt j (List.mem_of_getElem? hinv)
  rw [getMsbD_ipInvPerm c _ hi, List.getD_eq_getElem?_getD, hinv, Option.getD_some, getMsbD_ipPerm c x hj,
    List.getD_eq_getElem?_getD, hip, Option.getD_some]

theorem exec_ip (b : Byte) (s : State) : exec (.ip b) s = .next { s with dout := ipPerm Config.engine b } :=
  finish_byte _ s

theorem exec_ipinv (b : Byte) (s : State) : exec (.ipinv b) s = .next { s with dout := ipInvPerm Config.engine b } :=
  finish_byte _ s

/-- Settles O18: the fields of the word give the command or the error, and a selection keeps a byte of equal bits. -/
theorem ipPermutesByte : Obligations.IpPermutesByte := by
  unfold Obligations.IpPermutesByte
  refine ⟨exec_ip, fun w s hw => ?word, fun w s hop hr => cmdWrite_reservedFB hop (by decide) hr s,
    fun c => ⟨permuteSelect_zero c.ip, permuteSelect_allOnes c.ip⟩, decode_encode (.ip 0x97#8), by decide⟩
  case word =>
    obtain ⟨hop, hr⟩ := (maskFB_eq_iff 0x4#4 w).mp hw
    exact cmdWrite_of_wordFits (i := .ip _) ⟨hop, hr, rfl⟩ s

/-- Settles O19: as for IP, and IP⁻¹ undoes IP. -/
theorem ipinvPermutesByte : Obligations.IpinvPermutesByte := by
  unfold Obligations.IpinvPermutesByte
  refine ⟨exec_ipinv, fun w s hw => ?word, fun w s hop hr => cmdWrite_reservedFB hop (by decide) hr s,
    fun c => ⟨permuteSelect_zero c.ipInv, permuteSelect_allOnes c.ipInv⟩, fun b s => ⟨_, exec_ip b s, ?undo⟩,
    decode_encode (.ipinv 0x5D#8), by decide⟩
  case word =>
    obtain ⟨hop, hr⟩ := (maskFB_eq_iff 0x5#4 w).mp hw
    exact cmdWrite_of_wordFits (i := .ipinv _) ⟨hop, hr, rfl⟩ s
  case undo => rw [exec_ipinv, ipInvPerm_ipPerm]

/-! ### EP and P4 -/

/-- The elements of a selection are listed by its table. -/
theorem getMsbD_permuteSelect_toList {n m : Nat} (v : Bits n) (T : Vector (Fin n) m) (i : Fin m) :
    (permuteSelect v T).getMsbD i.val = (T.toList.map fun j => v.getMsbD j.val).getD i.val false := by
  rw [getMsbD_permuteSelect v T i.isLt, List.getD_eq_getElem _ _ (by simp)]
  simp [Vector.get]

/-- Settles O42: the two tables list the elements. -/
theorem epAndP4Elements : Obligations.EpAndP4Elements := by
  unfold Obligations.EpAndP4Elements
  exact ⟨fun r => getMsbD_permuteSelect_toList r epTable, fun p => getMsbD_permuteSelect_toList p p4Table, by decide⟩

/-- The table of EP lists each source position twice (R87), so EP doubles the number of ones (R92). -/
theorem ones_epExpand (n : Nibble) : ones (epExpand n) = 2 * ones n := by
  have htwice : epTable.toList.Perm (List.finRange 4 ++ List.finRange 4) := by decide
  rw [epExpand, ones_permuteSelect, htwice.countP_eq, List.countP_append, ← ones_eq_countP_finRange, Nat.two_mul]

theorem exec_ep (n : Nibble) (s : State) : exec (.ep n) s = .next { s with dout := epExpand n } :=
  finish_byte _ s

/-- Settles O20: the fields of the word give the command or the error, and EP lists each source position twice. -/
theorem epExpandsNibble : Obligations.EpExpandsNibble := by
  unfold Obligations.EpExpandsNibble
  have hword (w : Word) (s : State) (hw : w &&& 0xFFF0#16 = 0x6000#16) :
      cmdWrite w s = exec (.ep (w.extractLsb' 0 4)) s := by
    obtain ⟨hop, hr⟩ := (maskFN_eq_iff 0x6#4 w).mp hw
    exact cmdWrite_of_wordFits (i := .ep _) ⟨hop, hr, rfl⟩ s
  refine ⟨exec_ep, hword, fun w s hop hr => cmdWrite_reservedFN hop (by decide) hr s, ones_epExpand,
    permuteSelect_zero epTable, permuteSelect_allOnes epTable, fun s => ?vector⟩
  case vector =>
    have hA : epExpand 0xA#4 = 0x55#8 := by decide
    calc cmdWrite 0x600A#16 s = exec (.ep 0xA#4) s := hword 0x600A#16 s (by decide)
      _ = .next { s with dout := 0x55#8 } := by rw [exec_ep, hA]

end Sys2Proof.Machine

/-! The checks of a configuration (40_permutation_unit.md R88): the machine under raw tables runs exactly when they pass
all the checks, and is refused by the name of the first that fails. -/

namespace Sys2Proof

theorem SdesConfig.wellFormed_iff (c : SdesConfig) : c.wellFormed = true ↔ ∀ k, c.passes k = true :=
  ⟨c.passes_of_wellFormed, fun h => List.all_eq_true.mpr fun k _ => h k⟩

/-- A list of indices below `n + 1` is one of indices up to `n`. -/
theorem all_lt_succ_iff (n : Nat) (T : List Nat) : T.all (· < n + 1) = true ↔ ∀ x ∈ T, x ≤ n := by
  simp only [List.all_eq_true, decide_eq_true_iff, Nat.lt_succ_iff]

/-- WF_IPINV_INVERSE: `P_IP[P_IPINV[i]] = i` for each of the eight positions. -/
theorem SdesConfig.passes_wfIpInvInverse_iff (c : SdesConfig) :
    c.passes .wfIpInvInverse = true ↔ ∀ i ≤ 7, ∃ j, c.pIpInv[i]? = some j ∧ c.pIp[j]? = some i := by
  simp only [SdesConfig.passes, List.all_eq_true, List.mem_range, beq_iff_eq, Option.bind_eq_some_iff]
  exact forall_congr' fun i => imp_congr_left Nat.lt_succ_iff

namespace Machine

theorem stepIn_completes (c : WfConfig) (s : State) : ∃ t, stepIn c s = .next t := by
  obtain ⟨t, -, ht, -, -⟩ := tablesAffectOnlyDout c c s
  exact ⟨t, ht⟩

theorem stepUnder_completes {c : SdesConfig} (h : ∀ k, c.passes k = true) (s : State) :
    ∃ t, stepUnder c s = .next t := by
  have hok : c.wellFormed = true := c.wellFormed_iff.mpr h
  obtain ⟨t, ht⟩ := stepIn_completes ⟨c, hok⟩ s
  exact ⟨t, (stepUnder_raw ⟨c, hok⟩ s).trans ht⟩

theorem stepUnder_refused {c : SdesConfig} {k : ConfigCheck} (h : c.firstFailing = some k) (s : State) :
    stepUnder c s = .refused (.badConfig k) := by
  unfold stepUnder
  split
  · next hnone => rw [h] at hnone; contradiction
  · next k' hk' => rw [Option.some.inj (h.symm.trans hk')]

/-- Tables that do not pass every check are refused by the name of one they fail, the first. -/
theorem stepUnder_refused_of_failing {c : SdesConfig} (h : ¬∀ k, c.passes k = true) (s : State) :
    ∃ k, c.passes k = false ∧ stepUnder c s = .refused (.badConfig k) := by
  rcases hfirst : c.firstFailing with _ | k
  · exact absurd (c.wellFormed_iff.mp (c.wellFormed_of_firstFailing hfirst)) h
  · have hfails : c.passes k = false := by simpa using List.find?_some hfirst
    exact ⟨k, hfails, stepUnder_refused hfirst s⟩

/-- Settles O38: each check is its condition; tables that pass all are a `WfConfig`, whose step completes, and others have
a first failing check. -/
theorem badConfigurationRefused : Obligations.BadConfigurationRefused := by
  unfold Obligations.BadConfigurationRefused
  refine ⟨fun c => ?checks, fun c s => ⟨fun h => stepUnder_completes h s, fun h => stepUnder_refused_of_failing h s⟩,
    epTable.size_toArray, fun x _ => Nat.le_of_lt_succ x.isLt, p4Table.size_toArray,
    fun x _ => Nat.le_of_lt_succ x.isLt, by decide⟩
  case checks =>
    exact ⟨beq_iff_eq, all_lt_succ_iff 7 c.pIp, decide_eq_true_iff, beq_iff_eq, all_lt_succ_iff 7 c.pIpInv,
      c.passes_wfIpInvInverse_iff, beq_iff_eq, all_lt_succ_iff 9 c.pEpv1, beq_iff_eq, all_lt_succ_iff 9 c.pEpv2⟩

end Machine
end Sys2Proof

/-! The conversions between vectors and integers (40_permutation_unit.md R84, R85, 00_scope.md R12). -/

namespace Sys2Proof

/-- The integer that binary digits denote is the sum of their weights. -/
theorem Literal.value_bin_eq_sum (n : Nat) (f : Nat → Bool) :
    (Literal.bin ((List.range n).map f)).value =
      ((List.range n).map fun i => 2 ^ (n - 1 - i) * (f i).toNat).sum := by
  induction n with
  | zero => rfl
  | succ n ih =>
    have hdouble : ∀ i ∈ List.range n, 2 ^ (n - i) * (f i).toNat = 2 * (2 ^ (n - 1 - i) * (f i).toNat) := by
      intro i hi
      have hexp : n - i = n - 1 - i + 1 := by have := List.mem_range.mp hi; omega
      rw [hexp, Nat.pow_succ']
      exact Nat.mul_assoc ..
    calc (Literal.bin ((List.range (n + 1)).map f)).value
        = 2 * (Literal.bin ((List.range n).map f)).value + (f n).toNat := by
          simp [Literal.value, List.range_succ]
      _ = ((List.range n).map fun i => 2 ^ (n - i) * (f i).toNat).sum + (f n).toNat := by
          rw [ih, ← List.sum_map_mul_left, List.map_congr_left hdouble]
      _ = ((List.range (n + 1)).map fun i => 2 ^ (n + 1 - 1 - i) * (f i).toNat).sum := by
          simp [List.range_succ]

namespace Machine

/-- R84: integer bit `j` is the element `size-1-j`. -/
theorem getMsbD_byteToBits {size b : Nat} (h : b < 2 ^ size) (j : Fin size) :
    (byteToBits size b h).getMsbD (size - 1 - j.val) = b.testBit j.val := by
  have hlt : size - 1 - j.val < size := by omega
  have hindex : size - 1 - (size - 1 - j.val) = j.val := by omega
  rw [byteToBits, BitVec.getMsbD_eq_getLsbD, hindex, BitVec.getLsbD_ofNatLT, decide_eq_true hlt, Bool.true_and]

/-- Settles O39: the value of a vector is the one its binary digits denote, and a vector is its value at its length. -/
theorem bitsAndBytesConvert : Obligations.BitsAndBytesConvert := by
  unfold Obligations.BitsAndBytesConvert
  refine ⟨fun n v => ?_, fun size b h => ⟨BitVec.toNat_ofNatLT _ h, getMsbD_byteToBits h⟩,
    fun n v _ => BitVec.ofNatLT_toNat v⟩
  exact (Literal.value_bin_elements v).symm.trans (Literal.value_bin_eq_sum n v.getMsbD)

end Machine
end Sys2Proof

/-! The key schedule (41_key_schedule.md): the subkeys as selections through the open tables (R110), and LDKEY (R112). -/

namespace Sys2Proof

/-- Format FK: the mask 0xFC00 keeps the opcode and the reserved field (R61). -/
theorem maskFK_eq_iff (op : Bits 4) (w : Word) :
    w &&& 0xFC00#16 = op ++ 0#2 ++ 0#10 ↔ opField w = op ∧ w.extractLsb' 10 2 = 0#2 :=
  and_mask_eq_iff (b := 2) (c := 10) op w

/-- R68 for the opcode of format FK. -/
theorem decode_reservedFK {w : Word} (hop : opField w = 0x1#4) (hr : w.extractLsb' 10 2 ≠ 0#2) :
    decode w = .rejected .reservedNonzero := by
  simp [decode, hop, decodeFK, hr]

namespace Machine

/-- The elements of a selection through a table made from a list of indices are those that the list selects. -/
theorem getMsbD_permuteSelect_tableOf {n m : Nat} (v : Bits n) {T : List Nat} (hlen : T.length = m)
    (hrange : ∀ x ∈ T, x < n) (i : Fin m) (d : Nat) :
    (permuteSelect v (tableOf n m T hlen hrange)).getMsbD i.val = v.getMsbD (T.getD i.val d) := by
  have hi : i.val < T.length := hlen ▸ i.isLt
  rw [getMsbD_permuteSelect v _ i.isLt, get_tableOf, List.getD_eq_getElem T d hi]

/-- Settles O44: each subkey is a selection through a table made from the configuration's list. -/
theorem subkeysSelectKeyBits : Obligations.SubkeysSelectKeyBits := by
  unfold Obligations.SubkeysSelectKeyBits
  intro c key i
  exact ⟨getMsbD_permuteSelect_tableOf key c.pEpv1_length c.pEpv1_lt i 10,
    getMsbD_permuteSelect_tableOf key c.pEpv2_length c.pEpv2_lt i 10⟩

theorem exec_ldkey (k : Key) (s : State) : exec (.ldkey k) s = .next { s with key := k, kv := true } := rfl

/-- Settles O15: the fields of the word give the command or the error. -/
theorem ldkeyLoadsKey : Obligations.LdkeyLoadsKey := by
  unfold Obligations.LdkeyLoadsKey
  have hword (w : Word) (s : State) (hw : w &&& 0xFC00#16 = 0x1000#16) :
      cmdWrite w s = exec (.ldkey (w.extractLsb' 0 10)) s := by
    obtain ⟨hop, hr⟩ := (maskFK_eq_iff 0x1#4 w).mp hw
    exact cmdWrite_of_wordFits (i := .ldkey _) ⟨hop, hr, rfl⟩ s
  refine ⟨exec_ldkey, hword, fun w s hop hr => cmdWrite_of_rejected (decode_reservedFK hop hr) s, fun s => ?vector⟩
  case vector =>
    calc cmdWrite 0x1282#16 s = exec (.ldkey 0b1010000010#10) s := hword 0x1282#16 s (by decide)
      _ = .next { s with key := 0b1010000010#10, kv := true } := exec_ldkey _ s

end Machine
end Sys2Proof

/-! The substitution boxes (42_sbox.md): a box gives the entry of its list (R132, R133) at the big-endian value of its
input (R130); and the commands S0 and S1 (R135, R136). -/

namespace Sys2Proof.Machine

/-- A word of format FN with its reserved field zero runs the command of its opcode on its operand (R63). -/
theorem cmdWrite_of_maskFN {op : Bits 4} {mk : Nibble → Instr} (hmk : ∀ n, encode (mk n) = wordFN op n) {w : Word}
    (hw : w &&& 0xFFF0#16 = op ++ 0#8 ++ 0#4) (s : State) : cmdWrite w s = exec (mk (w.extractLsb' 0 4)) s := by
  obtain ⟨hop, hr⟩ := (maskFN_eq_iff op w).mp hw
  have hword : encode (mk (w.extractLsb' 0 4)) = w := (hmk _).trans ((wordFN_eq_iff op _ w).mpr ⟨hop, hr, rfl⟩)
  exact cmdWrite_of_wordFits ((encode_eq_iff_wordFits _ w).mp hword) s

theorem cmdWrite_encode (i : Instr) (s : State) : cmdWrite (encode i) s = exec i s :=
  commandStep_command exec (decode_encode i) s

/-- The entries of a box as integers, in the order of their indices. -/
def boxList (T : Vector (Fin 4) 16) : List Nat := T.toList.map Fin.val

theorem boxList_s0Table : boxList s0Table = [1, 3, 0, 2, 3, 1, 2, 0, 0, 3, 2, 1, 1, 3, 3, 2] := by decide

theorem boxList_s1Table : boxList s1Table = [0, 2, 1, 0, 2, 1, 3, 3, 3, 2, 0, 1, 1, 0, 0, 3] := by decide

/-- The index of an input lies in the list (R131), so the default `d` plays no part. -/
theorem toNat_sboxLookup (T : Vector (Fin 4) 16) (a : Nibble) (d : Nat) :
    (sboxLookup T a).toNat = (boxList T).getD a.toNat d := by
  have hlen : a.toNat < (boxList T).length := by simpa [boxList] using a.isLt
  rw [List.getD_eq_getElem _ _ hlen]
  simp [sboxLookup, boxList, byteToBits, bitsToByte]

/-- The value of a nibble, its element 0 most significant (R130). -/
theorem toNat_nibble (a : Nibble) :
    a.toNat = 8 * (a.getMsbD 0).toNat + 4 * (a.getMsbD 1).toNat + 2 * (a.getMsbD 2).toNat + (a.getMsbD 3).toNat := by
  obtain ⟨hval, -⟩ := bitsAndBytesConvert
  simpa [bitsToByte, List.range_succ, Nat.add_assoc] using hval 4 a

/-- Settles O45: a box gives the entry of its list at the value of its input, which is the big-endian sum. -/
theorem sboxesAreTheLists : Obligations.SboxesAreTheLists := by
  unfold Obligations.SboxesAreTheLists
  intro a
  rw [← toNat_nibble a, ← boxList_s0Table, ← boxList_s1Table]
  exact ⟨toNat_sboxLookup s0Table a 4, toNat_sboxLookup s1Table a 4⟩

/-- The result of a lookup goes to DOUT as the byte of the list's entry (R73). -/
theorem finish_sboxLookup (T : Vector (Fin 4) 16) (n : Nibble) (s : State) :
    finish (sboxLookup T n) s = .next { s with dout := BitVec.ofNat 8 ((boxList T).getD n.toNat 0) } := by
  rw [finish, State.writeResult, zext8, ← toNat_sboxLookup T n 0, BitVec.ofNat_toNat]

theorem exec_s0 (n : Nibble) (s : State) : exec (.s0 n) s = .next { s with
    dout := BitVec.ofNat 8 ([1, 3, 0, 2, 3, 1, 2, 0, 0, 3, 2, 1, 1, 3, 3, 2].getD n.toNat 0) } := by
  rw [← boxList_s0Table]
  exact finish_sboxLookup s0Table n s

theorem exec_s1 (n : Nibble) (s : State) : exec (.s1 n) s = .next { s with
    dout := BitVec.ofNat 8 ([0, 2, 1, 0, 2, 1, 3, 3, 3, 2, 0, 1, 1, 0, 0, 3].getD n.toNat 0) } := by
  rw [← boxList_s1Table]
  exact finish_sboxLookup s1Table n s

/-- Settles O22: the fields of the word give the command or the error, and the command looks the entry up. -/
theorem s0LooksUpBox : Obligations.S0LooksUpBox := by
  unfold Obligations.S0LooksUpBox
  refine ⟨exec_s0, fun w s hw => cmdWrite_of_maskFN (op := 0x8#4) (fun _ => rfl) hw s,
    fun w s hop hr => cmdWrite_reservedFN hop (by decide) hr s, fun s => ?vector⟩
  case vector =>
    calc cmdWrite 0x800B#16 s = exec (.s0 0xB#4) s := cmdWrite_encode (.s0 0xB#4) s
      _ = .next { s with dout := 0x01#8 } := exec_s0 0xB#4 s

/-- Settles O23: as for S0, with the corner cases among the words of the command. -/
theorem s1LooksUpBox : Obligations.S1LooksUpBox := by
  unfold Obligations.S1LooksUpBox
  refine ⟨exec_s1, fun w s hw => cmdWrite_of_maskFN (op := 0x9#4) (fun _ => rfl) hw s,
    fun w s hop hr => cmdWrite_reservedFN hop (by decide) hr s, fun s => ⟨?first, ?last, ?vector⟩⟩
  case first => exact (cmdWrite_encode (.s1 0x0#4) s).trans (exec_s1 0x0#4 s)
  case last => exact (cmdWrite_encode (.s1 0xF#4) s).trans (exec_s1 0xF#4 s)
  case vector => exact (cmdWrite_encode (.s1 0x8#4) s).trans (exec_s1 0x8#4 s)

end Sys2Proof.Machine

/-! The round function F (43_round_function.md): its elements (R150), its halves and what it undoes (R151), and the commands
FK1 and FK2 (R152, R153). -/

namespace Sys2Proof.Machine

/-! ### The elements of halves, selections and lookups -/

theorem getMsbD_leftHalf (v : Byte) {i : Nat} (hi : i < 4) : (leftHalf v).getMsbD i = v.getMsbD i := by
  conv_rhs => rw [← halves_append v, BitVec.getMsbD_append, if_neg (by omega)]

theorem getMsbD_rightHalf (v : Byte) (i : Nat) : (rightHalf v).getMsbD i = v.getMsbD (4 + i) := by
  conv_rhs => rw [← halves_append v, BitVec.getMsbD_append, if_pos (by omega), Nat.add_sub_cancel_left]

/-- The value of a left half, its element 0 most significant (R12). -/
theorem toNat_leftHalf (v : Byte) : (leftHalf v).toNat =
    8 * (v.getMsbD 0).toNat + 4 * (v.getMsbD 1).toNat + 2 * (v.getMsbD 2).toNat + (v.getMsbD 3).toNat := by
  simp [toNat_nibble, getMsbD_leftHalf]

theorem toNat_rightHalf (v : Byte) : (rightHalf v).toNat =
    8 * (v.getMsbD 4).toNat + 4 * (v.getMsbD 5).toNat + 2 * (v.getMsbD 6).toNat + (v.getMsbD 7).toNat := by
  simp [toNat_nibble, getMsbD_rightHalf]

theorem getMsbD_epExpand (r : Nibble) {i : Nat} (hi : i < 8) :
    (epExpand r).getMsbD i = r.getMsbD ([3, 0, 1, 2, 1, 2, 3, 0].getD i 0) := by
  have htable : ∀ i : Fin 8, (epTable.get i).val = [3, 0, 1, 2, 1, 2, 3, 0].getD i.val 0 := by decide
  rw [epExpand, getMsbD_permuteSelect r epTable hi, htable]

theorem getMsbD_p4Perm (p : Nibble) {i : Nat} (hi : i < 4) :
    (p4Perm p).getMsbD i = p.getMsbD ([1, 3, 2, 0].getD i 0) := by
  have htable : ∀ i : Fin 4, (p4Table.get i).val = [1, 3, 2, 0].getD i.val 0 := by decide
  rw [p4Perm, getMsbD_permuteSelect p p4Table hi, htable]

/-- The elements of two vectors of two, listed from the bits of their values (R130). -/
theorem getMsbD_append_bits2 (a b : Bits 2) (i : Nat) : (a ++ b).getMsbD i =
    [a.toNat.testBit 1, a.toNat.testBit 0, b.toNat.testBit 1, b.toNat.testBit 0].getD i false := by
  simp only [BitVec.testBit_toNat]
  rw [BitVec.getMsbD_append]
  match i with
  | 0 | 1 | 2 | 3 => rfl
  | i + 4 => simp [BitVec.getMsbD_of_ge]

/-! ### The elements of F -/

/-- R150, the first half: `Z ⊕ L`. -/
theorem getMsbD_roundF_left (blk sk : Byte) {i : Nat} (hi : i < 4) :
    (roundF blk sk).getMsbD i = xor ((roundZ (rightHalf blk) sk).getMsbD i) (blk.getMsbD i) := by
  rw [roundF, BitVec.getMsbD_append, if_neg (by omega), BitVec.getMsbD_xor, getMsbD_leftHalf blk hi]

/-- R150, the second half: `R`. -/
theorem getMsbD_roundF_right (blk sk : Byte) (i : Nat) :
    (roundF blk sk).getMsbD (4 + i) = blk.getMsbD (4 + i) := by
  rw [roundF, BitVec.getMsbD_append, if_pos (by omega), Nat.add_sub_cancel_left, getMsbD_rightHalf]

/-- Settles O47: with `X` the input of the two boxes, the statement's `x` lists its elements, `index 0` and `index 4` are the
values of its halves, `sl` and `sr` those of the boxes, and `p` lists what P4 selects from. -/
theorem roundFunctionElements : Obligations.RoundFunctionElements := by
  unfold Obligations.RoundFunctionElements
  intro blk sk x index sl sr p i
  let X : Byte := epExpand (rightHalf blk) ^^^ sk
  have hx {j : Nat} (hj : j < 8) : X.getMsbD j = x j := by
    rw [BitVec.getMsbD_xor, getMsbD_epExpand _ hj, getMsbD_rightHalf]
  have hleft : index 0 = (leftHalf X).toNat := by
    rw [toNat_leftHalf, hx (by decide), hx (by decide), hx (by decide), hx (by decide)]
  have hright : index 4 = (rightHalf X).toNat := by
    rw [toNat_rightHalf, hx (by decide), hx (by decide), hx (by decide), hx (by decide)]
  have hsl : sl = (sbox0 (leftHalf X)).toNat := by
    rw [sbox0, toNat_sboxLookup s0Table _ 0, boxList_s0Table, ← hleft]
  have hsr : sr = (sbox1 (rightHalf X)).toNat := by
    rw [sbox1, toNat_sboxLookup s1Table _ 0, boxList_s1Table, ← hright]
  have hz : (roundZ (rightHalf blk) sk).getMsbD i.val = p.getD ([1, 3, 2, 0].getD i.val 0) false := by
    rw [roundZ, getMsbD_p4Perm _ i.isLt, getMsbD_append_bits2, ← hsl, ← hsr]
  exact ⟨hz ▸ getMsbD_roundF_left blk sk i.isLt, getMsbD_roundF_right blk sk i.val⟩

/-! ### The halves of F and its inverse -/

/-- R151 (a). -/
theorem rightHalf_roundF (blk sk : Byte) : rightHalf (roundF blk sk) = rightHalf blk :=
  rightHalf_append _ _

theorem leftHalf_roundF (blk sk : Byte) :
    leftHalf (roundF blk sk) = roundZ (rightHalf blk) sk ^^^ leftHalf blk :=
  leftHalf_append _ _

/-- R151 (b): the second round adds the same Z to the left half again. -/
theorem roundF_roundF (blk sk : Byte) : roundF (roundF blk sk) sk = blk := by
  have hleft : roundZ (rightHalf blk) sk ^^^ (roundZ (rightHalf blk) sk ^^^ leftHalf blk) = leftHalf blk := by
    rw [← BitVec.xor_assoc, BitVec.xor_self, BitVec.zero_xor]
  calc roundF (roundF blk sk) sk
      = (roundZ (rightHalf blk) sk ^^^ (roundZ (rightHalf blk) sk ^^^ leftHalf blk)) ++ rightHalf blk := by
        rw [roundF, rightHalf_roundF, leftHalf_roundF]
    _ = blk := by rw [hleft, halves_append]

/-! ### FK1 and FK2 -/

/-- With KV = 1 a key-dependent command's result of eight bits goes to DOUT as it is. -/
theorem finishKeyed_loaded (r : Byte) {s : State} (hkv : s.kv = true) :
    finishKeyed r s = .next { s with dout := r } := by
  rw [finishKeyed, if_pos hkv, State.writeResult, zext8_byte]

/-- With KV = 0 a key-dependent command fails with code 11, whatever its result (R191). -/
theorem finishKeyed_unloaded {n : Nat} (r : Bits n) {s : State} (hkv : s.kv = false) :
    finishKeyed r s = .next (failedWith 0b11#2 s) := by
  rw [finishKeyed, hkv]
  rfl

/-- A word of format FB with its reserved field zero runs the command of its opcode on its operand (R62). -/
theorem cmdWrite_of_maskFB {op : Bits 4} {mk : Byte → Instr} (hmk : ∀ b, encode (mk b) = wordFB op b) {w : Word}
    (hw : w &&& 0xFF00#16 = op ++ 0#4 ++ 0#8) (s : State) : cmdWrite w s = exec (mk (w.extractLsb' 0 8)) s := by
  obtain ⟨hop, hr⟩ := (maskFB_eq_iff op w).mp hw
  have hword : encode (mk (w.extractLsb' 0 8)) = w := (hmk _).trans ((wordFB_eq_iff op _ w).mpr ⟨hop, hr, rfl⟩)
  exact cmdWrite_of_wordFits ((encode_eq_iff_wordFits _ w).mp hword) s

/-- The commands `mk b` are one round under the subkey that `subkey` takes from KEY. -/
def RunsRound (mk : Byte → Instr) (subkey : Key → Byte) : Prop :=
  ∀ b s, exec (mk b) s = finishKeyed (roundF b (subkey s.key)) s

theorem runsRound_fk1 : RunsRound .fk1 (subkey1 Config.engine) := fun _ _ => rfl

theorem runsRound_fk2 : RunsRound .fk2 (subkey2 Config.engine) := fun _ _ => rfl

section
variable {mk : Byte → Instr} {subkey : Key → Byte} (h : RunsRound mk subkey) (b : Byte) {s : State}
include h

theorem RunsRound.exec_loaded (hkv : s.kv = true) :
    exec (mk b) s = .next { s with dout := roundF b (subkey s.key) } :=
  (h b s).trans (finishKeyed_loaded _ hkv)

theorem RunsRound.exec_unloaded (hkv : s.kv = false) : exec (mk b) s = .next (failedWith 0b11#2 s) :=
  (h b s).trans (finishKeyed_unloaded _ hkv)

/-- A round keeps the low nibble of its byte, and the same round on DOUT gives the byte back (R152). -/
theorem RunsRound.exec_twice (hkv : s.kv = true) : ∃ t, exec (mk b) s = .next t ∧
    t.dout.extractLsb' 0 4 = b.extractLsb' 0 4 ∧ exec (mk t.dout) t = .next { s with dout := b } := by
  have hsecond := h.exec_loaded (s := { s with dout := roundF b (subkey s.key) }) (roundF b (subkey s.key)) hkv
  rw [roundF_roundF] at hsecond
  exact ⟨_, h.exec_loaded b hkv, rightHalf_roundF b _, hsecond⟩

end

/-- Settles O26: the fields of the word give the command or the error, and the command runs one round under K1. -/
theorem fk1RunsOneRound : Obligations.Fk1RunsOneRound := by
  unfold Obligations.Fk1RunsOneRound
  exact ⟨fun b _ => runsRound_fk1.exec_loaded b, fun b _ => runsRound_fk1.exec_unloaded b,
    fun _ s hw => cmdWrite_of_maskFB (op := 0xC#4) (fun _ => rfl) hw s,
    fun _ s hop hr => cmdWrite_reservedFB hop (by decide) hr s, fun b _ => runsRound_fk1.exec_twice b,
    decode_encode (.fk1 0x5D#8), by decide⟩

/-- Settles O27: as for FK1, with K2. -/
theorem fk2RunsOneRound : Obligations.Fk2RunsOneRound := by
  unfold Obligations.Fk2RunsOneRound
  exact ⟨fun b _ => runsRound_fk2.exec_loaded b, fun b _ => runsRound_fk2.exec_unloaded b,
    fun _ s hw => cmdWrite_of_maskFB (op := 0xD#4) (fun _ => rfl) hw s,
    fun _ s hop hr => cmdWrite_reservedFB hop (by decide) hr s, fun b _ => runsRound_fk2.exec_twice b,
    decode_encode (.fk2 0xDA#8), by decide⟩

end Sys2Proof.Machine

/-! The pipeline (44_pipeline.md): its steps (R171, R172); a pipe is undone by the pipe with the subkeys exchanged, and
by itself exactly if these are equal (R173, R174); the commands ENC and DEC (R174, R175); and a message sent byte by byte
through one of them (R178). -/

namespace Sys2Proof.Machine

/-- Settles O50: the half-swap is the concatenation of the exchanged halves. -/
theorem pipelineSteps : Obligations.PipelineSteps := by
  unfold Obligations.PipelineSteps
  exact fun c x ka kb key => ⟨rfl, rfl, rfl⟩

/-! ### What a pipe undoes (R173 (a)) -/

theorem leftHalf_swapHalves (v : Byte) : leftHalf (swapHalves v) = rightHalf v := leftHalf_append _ _

theorem rightHalf_swapHalves (v : Byte) : rightHalf (swapHalves v) = leftHalf v := rightHalf_append _ _

theorem swapHalves_swapHalves (v : Byte) : swapHalves (swapHalves v) = v := by
  rw [swapHalves, leftHalf_swapHalves, rightHalf_swapHalves, halves_append]

theorem innerNetwork_innerNetwork (v ka kb : Byte) : innerNetwork (innerNetwork v ka kb) kb ka = v := by
  rw [innerNetwork, innerNetwork, roundF_roundF, swapHalves_swapHalves, roundF_roundF]

/-- IP undoes IP⁻¹ too (R89): IP is injective, so on the finitely many bytes it is surjective. -/
theorem ipPerm_ipInvPerm (c : WfConfig) (y : Byte) : ipPerm c (ipInvPerm c y) = y := by
  have hinv : Function.LeftInverse (ipInvPerm c) (ipPerm c) := ipInvPerm_ipPerm c
  exact hinv.rightInverse_of_surjective (Finite.surjective_of_injective hinv.injective) y

theorem pipe_pipe (c : WfConfig) (x ka kb : Byte) : pipe c (pipe c x ka kb) kb ka = x := by
  rw [pipe, pipe, ipPerm_ipInvPerm, innerNetwork_innerNetwork, ipInvPerm_ipPerm]

theorem decryptByte_encryptByte (c : WfConfig) (key : Key) (x : Byte) :
    decryptByte c key (encryptByte c key x) = x :=
  pipe_pipe c x _ _

/-! ### The subkey that a round adds is determined by the rounds under it -/

/-- S-box 0 tells any two values added to all its inputs apart. -/
theorem eq_of_sbox0_xor : ∀ a b : Nibble, (∀ x, sbox0 (x ^^^ a) = sbox0 (x ^^^ b)) → a = b := by
  decide

theorem eq_of_sbox1_xor : ∀ a b : Nibble, (∀ x, sbox1 (x ^^^ a) = sbox1 (x ^^^ b)) → a = b := by
  decide

/-- Every nibble is a half of an expansion (R87). -/
theorem leftHalf_epExpand_surjective : Function.Surjective fun r => leftHalf (epExpand r) := by
  unfold Function.Surjective
  decide

theorem rightHalf_epExpand_surjective : Function.Surjective fun r => rightHalf (epExpand r) := by
  unfold Function.Surjective
  decide

/-- P4 moves its four elements to different places, so its value gives back the outputs of both boxes. -/
theorem p4Perm_append_inj : ∀ a b c d : Bits 2, p4Perm (a ++ b) = p4Perm (c ++ d) → a = c ∧ b = d := by
  decide

/-- `Z` as a function of the right half determines the subkey: the expansion reaches every input of both boxes. -/
theorem eq_of_roundZ_eq {ka kb : Byte} (h : ∀ r, roundZ r ka = roundZ r kb) : ka = kb := by
  have hleft : leftHalf ka = leftHalf kb := by
    refine eq_of_sbox0_xor _ _ fun x => ?_
    obtain ⟨r, rfl⟩ := leftHalf_epExpand_surjective x
    obtain ⟨hbox, -⟩ := p4Perm_append_inj _ _ _ _ (h r)
    simpa only [leftHalf, BitVec.extractLsb'_xor] using hbox
  have hright : rightHalf ka = rightHalf kb := by
    refine eq_of_sbox1_xor _ _ fun x => ?_
    obtain ⟨r, rfl⟩ := rightHalf_epExpand_surjective x
    obtain ⟨-, hbox⟩ := p4Perm_append_inj _ _ _ _ (h r)
    simpa only [rightHalf, BitVec.extractLsb'_xor] using hbox
  rw [← halves_append ka, ← halves_append kb, hleft, hright]

/-! ### Encrypting twice (R173 (d), R174) -/

/-- The second round keeps the half that the first one made. -/
theorem rightHalf_innerNetwork (v ka kb : Byte) :
    rightHalf (innerNetwork v ka kb) = roundZ (rightHalf v) ka ^^^ leftHalf v := by
  rw [innerNetwork, rightHalf_roundF, rightHalf_swapHalves, leftHalf_roundF]

/-- Two subkeys that commute in the network are equal: `Z` of the first round stands in the right half. -/
theorem eq_of_innerNetwork_comm {ka kb : Byte} (h : ∀ v, innerNetwork v ka kb = innerNetwork v kb ka) : ka = kb := by
  refine eq_of_roundZ_eq fun r => ?_
  have hright := congrArg rightHalf (h (0#4 ++ r))
  simpa [rightHalf_innerNetwork, leftHalf_append, rightHalf_append] using hright

theorem ipPerm_pipe_ipInvPerm (c : WfConfig) (v ka kb : Byte) :
    ipPerm c (pipe c (ipInvPerm c v) ka kb) = innerNetwork v ka kb := by
  rw [pipe, ipPerm_ipInvPerm, ipPerm_ipInvPerm]

/-- A pipe is its own inverse exactly when its subkeys are equal: the inverse exchanges them. -/
theorem pipe_involutive_iff (c : WfConfig) (ka kb : Byte) :
    (∀ x, pipe c (pipe c x ka kb) ka kb = x) ↔ ka = kb := by
  constructor
  · intro h
    have hcomm (x : Byte) : pipe c x ka kb = pipe c x kb ka := by
      calc pipe c x ka kb = pipe c (pipe c (pipe c x kb ka) ka kb) ka kb := by rw [pipe_pipe]
        _ = pipe c x kb ka := h _
    refine eq_of_innerNetwork_comm fun v => ?_
    rw [← ipPerm_pipe_ipInvPerm c, hcomm, ipPerm_pipe_ipInvPerm]
  · rintro rfl x
    exact pipe_pipe c x ka ka

/-! ### ENC and DEC -/

/-- The commands `mk b` need a key and compute `f` of KEY and their byte. -/
def ComputesKeyed (mk : Byte → Instr) (f : Key → Byte → Byte) : Prop :=
  ∀ b s, exec (mk b) s = finishKeyed (f s.key b) s

theorem computesKeyed_enc : ComputesKeyed .enc (encryptByte Config.engine) := fun _ _ => rfl

theorem computesKeyed_dec : ComputesKeyed .dec (decryptByte Config.engine) := fun _ _ => rfl

section
variable {mk : Byte → Instr} {f : Key → Byte → Byte} (h : ComputesKeyed mk f) (b : Byte) {s : State}
include h

theorem ComputesKeyed.exec_loaded (hkv : s.kv = true) : exec (mk b) s = .next { s with dout := f s.key b } :=
  (h b s).trans (finishKeyed_loaded _ hkv)

theorem ComputesKeyed.exec_unloaded (hkv : s.kv = false) : exec (mk b) s = .next (failedWith 0b11#2 s) :=
  (h b s).trans (finishKeyed_unloaded _ hkv)

end

/-- Settles O16: the fields of the word give the command or the error, and encryption is a pipe from K1 to K2. -/
theorem encEncryptsByte : Obligations.EncEncryptsByte := by
  unfold Obligations.EncEncryptsByte
  exact ⟨fun b _ => computesKeyed_enc.exec_loaded b, fun b _ => computesKeyed_enc.exec_unloaded b,
    fun _ s hw => cmdWrite_of_maskFB (op := 0x2#4) (fun _ => rfl) hw s,
    fun _ s hop hr => cmdWrite_reservedFB hop (by decide) hr s, fun c k => pipe_involutive_iff c _ _,
    by decide +kernel⟩

/-- Settles O17: as for ENC, with the subkeys exchanged, so that DEC undoes ENC. -/
theorem decDecryptsByte : Obligations.DecDecryptsByte := by
  unfold Obligations.DecDecryptsByte
  refine ⟨fun b _ => computesKeyed_dec.exec_loaded b, fun b _ => computesKeyed_dec.exec_unloaded b,
    fun _ s hw => cmdWrite_of_maskFB (op := 0x3#4) (fun _ => rfl) hw s,
    fun _ s hop hr => cmdWrite_reservedFB hop (by decide) hr s,
    fun b s hkv => ⟨_, computesKeyed_enc.exec_loaded b hkv, ?undo⟩,
    by decide +kernel⟩
  case undo =>
    have hdec := computesKeyed_dec.exec_loaded (s := { s with dout := encryptByte Config.engine s.key b })
      (encryptByte Config.engine s.key b) hkv
    rwa [decryptByte_encryptByte] at hdec

/-! ### Messages -/

/-- A run of `m + n` steps is one of `n` steps from where `m` steps lead. -/
theorem run_add {m : Nat} {s t : State} (h : Host.Core.run core m s = .next t) (n : Nat) :
    Host.Core.run core (m + n) s = Host.Core.run core n t := by
  induction m generalizing s with
  | zero => rw [Nat.zero_add, Host.Outcome.next.inj h]
  | succ m ih =>
    obtain ⟨s', hs'⟩ := step_completes s
    rw [run_succ hs'] at h
    rw [Nat.succ_add, run_succ hs', ih h]

/-- The accesses of ENCMSG and of DECMSG: the command on each byte, and the read of its result (R71). -/
def messageAccesses (mk : Byte → Instr) (m : List Byte) : List HostAccess :=
  m.flatMap fun b => [.write addrCmd (encode (mk b)), .read addrDout]

theorem encMsg_eq_messageAccesses (m : List Byte) : encMsg m = messageAccesses .enc m := rfl

theorem messageAccesses_cons (mk : Byte → Instr) (b : Byte) (m : List Byte) (rest : List HostAccess) :
    messageAccesses mk (b :: m) ++ rest =
      .write addrCmd (encode (mk b)) :: .read addrDout :: (messageAccesses mk m ++ rest) := rfl

section
variable {mk : Byte → Instr} {f : Key → Byte → Byte} (h : ComputesKeyed mk f) (rest : List HostAccess) {s : State}
include h

/-- One byte of a message: the command, then the read of its result. -/
theorem ComputesKeyed.run_command_read (b : Byte) (hkv : s.kv = true) :
    Host.Core.run core 2 { s with pending := .write addrCmd (encode (mk b)) :: .read addrDout :: rest } =
      .next { s with dout := f s.key b, pending := rest, replies := s.replies ++ [0#8 ++ f s.key b] } := by
  obtain ⟨t, hcommand, hrun⟩ := readAfterCommandSeesItsResult (encode (mk b)) rest s
  have hresult := h.exec_loaded b (s := { s with pending := .read addrDout :: rest }) hkv
  rw [commandStep_command exec (decode_encode (mk b))] at hcommand
  cases hresult.symm.trans hcommand
  exact hrun

/-- A message with a key loaded: the replies are the results of its bytes in order, and DOUT is left with the last. -/
theorem ComputesKeyed.run_message (m : List Byte) (hkv : s.kv = true) :
    Host.Core.run core (2 * m.length) { s with pending := messageAccesses mk m ++ rest } =
      .next { s with dout := (m.map (f s.key)).getLastD s.dout, pending := rest,
                     replies := s.replies ++ m.map fun b => 0#8 ++ f s.key b } := by
  induction m generalizing s with
  | nil => simp [messageAccesses, Host.Core.run]
  | cons b m ih =>
    have hbyte := h.run_command_read (messageAccesses mk m ++ rest) b hkv
    have hlater := ih (s := { s with dout := f s.key b, replies := s.replies ++ [0#8 ++ f s.key b] }) hkv
    rw [List.length_cons, Nat.mul_succ, Nat.add_comm, messageAccesses_cons, run_add hbyte]
    simpa only [List.map_cons, List.getLastD_cons, List.append_assoc, List.singleton_append] using hlater

end

/-- Settles O53: ENCMSG sends its message through ENC. -/
theorem encmsgEncryptsMessage : Obligations.EncmsgEncryptsMessage := by
  unfold Obligations.EncmsgEncryptsMessage
  intro m rest s hkv
  rw [encMsg_eq_messageAccesses]
  exact ⟨_, computesKeyed_enc.run_message rest m hkv, rfl, rfl⟩

end Sys2Proof.Machine

/-! The command errors (60_exceptions.md): which words are rejected, and with which error (R190, R191); what a word that is
not rejected does, by the key it needs (R191, R193); and the idle engine (R205). -/

namespace Sys2Proof

/-- The fields of a word that is rejected with an error (R191): an opcode of no command, or a command's opcode with the
reserved field of its format not zero. The key is not a matter of the word. -/
def WordFails (w : Word) : CmdError → Prop
  | .illegalOpcode => (opField w).toNat ∈ [0x0, 0xE, 0xF]
  | .reservedNonzero =>
    ((opField w).toNat = 0x1 ∧ w.extractLsb' 10 2 ≠ 0#2) ∨
    ((opField w).toNat ∈ [0x2, 0x3, 0x4, 0x5, 0xC, 0xD] ∧ w.extractLsb' 8 4 ≠ 0#4) ∨
    ((opField w).toNat ∈ [0x6, 0x7, 0x8, 0x9] ∧ w.extractLsb' 4 8 ≠ 0#8) ∨
    ((opField w).toNat ∈ [0xA, 0xB] ∧ w.extractLsb' 0 12 ≠ 0#12)
  | .keyNotLoaded => False

theorem decodeFK_rejected_iff (mk : Key → Instr) (w : Word) (e : CmdError) :
    decodeFK mk w = .rejected e ↔ .reservedNonzero = e ∧ w.extractLsb' 10 2 ≠ 0#2 := by
  unfold decodeFK
  split <;> simp [*]

theorem decodeFB_rejected_iff (mk : Byte → Instr) (w : Word) (e : CmdError) :
    decodeFB mk w = .rejected e ↔ .reservedNonzero = e ∧ w.extractLsb' 8 4 ≠ 0#4 := by
  unfold decodeFB
  split <;> simp [*]

theorem decodeFN_rejected_iff (mk : Nibble → Instr) (w : Word) (e : CmdError) :
    decodeFN mk w = .rejected e ↔ .reservedNonzero = e ∧ w.extractLsb' 4 8 ≠ 0#8 := by
  unfold decodeFN
  split <;> simp [*]

theorem decodeFZ_rejected_iff (i : Instr) (w : Word) (e : CmdError) :
    decodeFZ i w = .rejected e ↔ .reservedNonzero = e ∧ w.extractLsb' 0 12 ≠ 0#12 := by
  unfold decodeFZ
  split <;> simp [*]

/-- A word is rejected with an error exactly when its fields are those of a word that fails with it. -/
theorem decode_eq_rejected_iff (w : Word) (e : CmdError) : decode w = .rejected e ↔ WordFails w e := by
  unfold decode
  split
  case h_14 =>
    have hop : (opField w).toNat = 0x0 ∨ (opField w).toNat = 0xE ∨ (opField w).toNat = 0xF := by
      have hlt := (opField w).isLt
      simp only [imp_false] at *
      omega
    obtain hop | hop | hop := hop <;> cases e <;> simp [WordFails, hop]
  all_goals
    rename_i hop
    simp only [decodeFK_rejected_iff, decodeFB_rejected_iff, decodeFN_rejected_iff, decodeFZ_rejected_iff]
    cases e <;> simp [WordFails, hop]

/-- A word that fails for neither of its fields is a command's (R191: the third error is of the command, not of the word). -/
theorem exists_wordFits {w : Word} (hlegal : ¬WordFails w .illegalOpcode) (hzero : ¬WordFails w .reservedNonzero) :
    ∃ i, WordFits w i := by
  rcases hd : decode w with i | e
  · exact ⟨i, (decode_eq_command_iff w i).mp hd⟩
  · have hfails := (decode_eq_rejected_iff w e).mp hd
    cases e with
    | illegalOpcode => exact absurd hfails hlegal
    | reservedNonzero => exact absurd hfails hzero
    | keyNotLoaded => exact hfails.elim

/-- The words of the commands that need the key are those of six opcodes (R191). -/
theorem WordFits.needsKey_iff {w : Word} {i : Instr} (h : WordFits w i) :
    i.needsKey = true ↔ (opField w).toNat ∈ [0x2, 0x3, 0xA, 0xB, 0xC, 0xD] := by
  cases i <;> obtain ⟨hop, -⟩ := h <;> simp [Instr.needsKey, hop]

namespace Machine

/-- A key-dependent command with no key loaded fails with code 11. -/
theorem exec_of_key_missing {i : Instr} (hn : i.needsKey = true) {s : State} (hkv : s.kv = false) :
    exec i s = .next (failedWith 0b11#2 s) :=
  (exec_eq_execIn i s).trans (execIn_of_key_missing Config.engine hn hkv)

/-- A command that has the key it needs raises no error. -/
theorem exec_keeps_err_ecode {i : Instr} {s : State} (hkey : i.needsKey = true → s.kv = true) :
    ∃ t, exec i s = .next t ∧ t.err = s.err ∧ t.ecode = s.ecode := by
  rw [exec_eq_execIn]
  rcases execIn_cases Config.engine i s with ⟨k, -, h⟩ | ⟨r, -, -, h⟩ | ⟨hn, hkv, -⟩
  · exact ⟨_, h, rfl, rfl⟩
  · exact ⟨_, h, rfl, rfl⟩
  · exact absurd (hkey hn) (by simp [hkv])

/-- Settles O5: a word whose fields fail is rejected; any other is a command's, and that command's key check decides. -/
theorem commandWordErrors : Obligations.CommandWordErrors := by
  unfold Obligations.CommandWordErrors
  intro w s op illegal reserved noKey
  have hfails (e : CmdError) (h : WordFails w e) : cmdWrite w s = .next (failedWith (errorCode e) s) :=
    cmdWrite_of_rejected ((decode_eq_rejected_iff w e).mpr h) s
  refine ⟨hfails .illegalOpcode, fun _ => hfails .reservedNonzero, fun hlegal hzero hkey => ?missing,
    fun hlegal hzero hkey => ?none⟩
  all_goals
    obtain ⟨i, hfits⟩ := exists_wordFits hlegal hzero
    rw [cmdWrite_of_wordFits hfits]
  case missing =>
    obtain ⟨hop, hkv⟩ := hkey
    exact exec_of_key_missing (hfits.needsKey_iff.mpr hop) hkv
  case none =>
    refine exec_keeps_err_ecode fun hneeds => ?_
    by_contra hkv
    exact hkey ⟨hfits.needsKey_iff.mp hneeds, Bool.eq_false_of_not_eq_true hkv⟩

/-- Settles O14: the engine takes its step for any meaning of commands, and runs none here. -/
theorem idleStateHolds : Obligations.IdleStateHolds := by
  unfold Obligations.IdleStateHolds
  intro s h
  exact stepWith_nil exec h

end Machine
end Sys2Proof

/-! Reset and power-on (70_reset_and_hazards.md section 1). -/

namespace Sys2Proof.Machine

/-- STATUS is all zeros when its three fields are (10_state.md R24, R28). -/
theorem statusWord_eq_zero {s : State} (hkv : s.kv = false) (herr : s.err = false) (hecode : s.ecode = 0#2) :
    statusWord s = 0#8 := by
  simp [statusWord, hkv, herr, hecode]

/-- Settles O13: the host's reset leaves `resetEngine`'s registers, power-on `State.reset`'s, and STATUS is a view of
KV, ERR and ECODE. -/
theorem resetValues : Obligations.ResetValues := by
  unfold Obligations.ResetValues
  refine ⟨fun s => ⟨s.resetEngine, rfl, ?_⟩, ?_⟩
  all_goals exact ⟨rfl, rfl, rfl, rfl, statusWord_eq_zero rfl rfl rfl⟩

/-- Settles O34: at power-on ECODE is 00 and ERR 0, and no read has returned a value. -/
theorem resetIsLegal : Obligations.ResetIsLegal where
  ecode_iff := iff_of_true rfl rfl
  replies_narrow := List.forall_mem_nil _

end Sys2Proof.Machine

/-! The permutation unit once more (40_permutation_unit.md): IP and IP⁻¹ keep the number of ones (R89), and the command P4
with the cycle of its table (R93). -/

namespace Sys2Proof.Machine

/-! ### Ones under IP and IP⁻¹ -/

theorem map_val_toList_tableOf (n m : Nat) (T : List Nat) (hlen : T.length = m) (hrange : ∀ x ∈ T, x < n) :
    (tableOf n m T hlen hrange).toList.map Fin.val = T := by
  simp [tableOf, Vector.toList]

/-- WF_IP_PERM: the table of IP lists each of the eight positions once (R88). -/
theorem toList_ip_perm (c : WfConfig) : c.ip.toList.Perm (List.finRange 8) := by
  have hval : c.ip.toList.map Fin.val = c.raw.pIp := map_val_toList_tableOf 8 8 c.raw.pIp c.pIp_length c.pIp_lt
  have hnodup : c.ip.toList.Nodup := List.Nodup.of_map Fin.val (hval ▸ c.pIp_nodup)
  exact (hnodup.subperm fun i _ => List.mem_finRange i).perm_of_length_le (by simp)

theorem ones_ipPerm (c : WfConfig) (x : Byte) : ones (ipPerm c x) = ones x := by
  rw [ipPerm, ones_permuteSelect, (toList_ip_perm c).countP_eq, ← ones_eq_countP_finRange]

theorem ones_ipInvPerm (c : WfConfig) (y : Byte) : ones (ipInvPerm c y) = ones y := by
  rw [← ones_ipPerm c (ipInvPerm c y), ipPerm_ipInvPerm]

/-- Settles O43: the two tables are inverse, and that of IP lists each position once. -/
theorem ipAndIpInvAreInverse : Obligations.IpAndIpInvAreInverse := by
  unfold Obligations.IpAndIpInvAreInverse
  exact fun c x => ⟨ipInvPerm_ipPerm c x, ipPerm_ipInvPerm c x, ones_ipPerm c x, ones_ipInvPerm c x,
    permuteSelect_zero c.ip, permuteSelect_allOnes c.ip⟩

/-! ### P4 -/

theorem exec_p4 (n : Nibble) (s : State) : exec (.p4 n) s = .next { s with dout := 0b0000#4 ++ p4Perm n } := by
  have hzext : zext8 (p4Perm n) = 0b0000#4 ++ p4Perm n := BitVec.setWidth_eq_append (by decide)
  rw [← hzext]
  rfl

/-- P4 moves the elements 0, 1 and 3 in a cycle and keeps element 2. -/
theorem p4Perm_eq_self_iff (n : Nibble) :
    p4Perm n = n ↔ n.getMsbD 0 = n.getMsbD 1 ∧ n.getMsbD 1 = n.getMsbD 3 := by
  constructor
  · intro h
    have hmove {i : Nat} (hi : i < 4) : n.getMsbD i = n.getMsbD ([1, 3, 2, 0].getD i 0) := by
      rw [← getMsbD_p4Perm n hi, h]
    exact ⟨hmove (i := 0) (by decide), hmove (i := 1) (by decide)⟩
  · rintro ⟨h01, h13⟩
    refine eq_of_elements fun i hi => ?_
    rw [getMsbD_p4Perm n hi]
    match i with
    | 0 => exact h01.symm
    | 1 => exact h13.symm
    | 2 => rfl
    | 3 => exact h01.trans h13

/-- Three times around the cycle brings each element back (R93). -/
theorem p4Perm_p4Perm_p4Perm (n : Nibble) : p4Perm (p4Perm (p4Perm n)) = n := by
  have hlt : ∀ i < 4, [1, 3, 2, 0].getD i 0 < 4 := by decide
  have hcycle : ∀ i < 4, [1, 3, 2, 0].getD ([1, 3, 2, 0].getD ([1, 3, 2, 0].getD i 0) 0) 0 = i := by decide
  refine eq_of_elements fun i hi => ?_
  rw [getMsbD_p4Perm _ hi, getMsbD_p4Perm _ (hlt i hi), getMsbD_p4Perm _ (hlt _ (hlt i hi)), hcycle i hi]

/-- The nibbles whose elements 0, 1 and 3 are equal. -/
theorem mem_p4FixedPoints_iff : ∀ n : Nibble, n ∈ [0b0000#4, 0b0010#4, 0b1101#4, 0b1111#4] ↔
    n.getMsbD 0 = n.getMsbD 1 ∧ n.getMsbD 1 = n.getMsbD 3 := by
  decide

/-- Settles O21: the fields of the word give the command or the error, and P4 moves three of its elements in a cycle. -/
theorem p4PermutesNibble : Obligations.P4PermutesNibble := by
  unfold Obligations.P4PermutesNibble
  refine ⟨exec_p4, fun w s hw => cmdWrite_of_maskFN (op := 0x7#4) (fun _ => rfl) hw s,
    fun w s hop hr => cmdWrite_reservedFN hop (by decide) hr s,
    fun n => ⟨(p4Perm_eq_self_iff n).trans (mem_p4FixedPoints_iff n).symm, p4Perm_eq_self_iff n⟩,
    p4Perm_p4Perm_p4Perm, permuteSelect_zero p4Table, permuteSelect_allOnes p4Table, fun s => ?vector⟩
  case vector =>
    have h1 : 0b0000#4 ++ p4Perm 0x1#4 = 0x04#8 := by decide
    calc cmdWrite 0x7001#16 s = exec (.p4 0x1#4) s := cmdWrite_encode (.p4 0x1#4) s
      _ = .next { s with dout := 0x04#8 } := by rw [exec_p4, h1]

end Sys2Proof.Machine

/-! The subkeys (41_key_schedule.md): the constant keys (R113), the commands SK1 and SK2 (R113, R114), and the command
right after an LDKEY (R111). -/

namespace Sys2Proof

/-- R68 for the opcodes of format FZ. -/
theorem decode_reservedFZ {w : Word} (hop : opField w ∈ [0xA#4, 0xB#4]) (hr : w.extractLsb' 0 12 ≠ 0#12) :
    decode w = .rejected .reservedNonzero := by
  simp only [List.mem_cons, List.not_mem_nil, or_false] at hop
  rcases hop with h | h <;> simp [decode, h, decodeFZ, hr]

namespace Machine

/-- A word of format FZ whose reserved field is not zero fails with code 10. -/
theorem cmdWrite_reservedFZ {w : Word} {op : Bits 4} (hop : opField w = op) (hfz : op ∈ [0xA#4, 0xB#4])
    (hr : w.extractLsb' 0 12 ≠ 0#12) (s : State) : cmdWrite w s = .next (failedWith 0b10#2 s) :=
  cmdWrite_of_rejected (decode_reservedFZ (hop ▸ hfz) hr) s

/-! ### The constant keys -/

theorem subkey1_zero (c : WfConfig) : subkey1 c 0b0000000000#10 = 0x00#8 := permuteSelect_zero c.epv1

theorem subkey2_zero (c : WfConfig) : subkey2 c 0b0000000000#10 = 0x00#8 := permuteSelect_zero c.epv2

theorem subkey1_allOnes (c : WfConfig) : subkey1 c 0b1111111111#10 = 0xFF#8 := permuteSelect_allOnes c.epv1

theorem subkey2_allOnes (c : WfConfig) : subkey2 c 0b1111111111#10 = 0xFF#8 := permuteSelect_allOnes c.epv2

/-! ### SK1 and SK2 -/

theorem exec_sk1_loaded {s : State} (hkv : s.kv = true) :
    exec .sk1 s = .next { s with dout := subkey1 Config.engine s.key } :=
  finishKeyed_loaded _ hkv

theorem exec_sk2_loaded {s : State} (hkv : s.kv = true) :
    exec .sk2 s = .next { s with dout := subkey2 Config.engine s.key } :=
  finishKeyed_loaded _ hkv

/-- Settles O24: the word is that of the command, and its fields give the error; a selection keeps a constant key. -/
theorem sk1ReadsSubkey : Obligations.Sk1ReadsSubkey := by
  unfold Obligations.Sk1ReadsSubkey
  exact ⟨fun _ => exec_sk1_loaded, fun _ => exec_of_key_missing rfl, cmdWrite_encode .sk1,
    fun _ s hop hr => cmdWrite_reservedFZ hop (by decide) hr s, fun c => ⟨subkey1_zero c, subkey1_allOnes c⟩,
    by decide⟩

/-- Settles O25: as for SK1, with K2. -/
theorem sk2ReadsSubkey : Obligations.Sk2ReadsSubkey := by
  unfold Obligations.Sk2ReadsSubkey
  exact ⟨fun _ => exec_sk2_loaded, fun _ => exec_of_key_missing rfl, cmdWrite_encode .sk2,
    fun _ s hop hr => cmdWrite_reservedFZ hop (by decide) hr s, fun c => ⟨subkey2_zero c, subkey2_allOnes c⟩,
    by decide⟩

/-- Settles O28: LDKEY leaves the new key in KEY with KV = 1, which is all that a key-dependent command reads. -/
theorem newKeySeenByNextCommand : Obligations.NewKeySeenByNextCommand := by
  unfold Obligations.NewKeySeenByNextCommand
  exact fun k b s => ⟨_, exec_ldkey k s, exec_sk1_loaded rfl, exec_sk2_loaded rfl, computesKeyed_enc.exec_loaded b rfl,
    computesKeyed_dec.exec_loaded b rfl, runsRound_fk1.exec_loaded b rfl, runsRound_fk2.exec_loaded b rfl⟩

end Machine
end Sys2Proof

/-! The counts of the S-boxes (42_sbox.md R134), the laws of F (43_round_function.md R151) and of the pipeline
(44_pipeline.md R170, R173), and the round trips on the machine (R173 (a), R178). -/

namespace Sys2Proof.Machine

/-- A box gives, over its sixteen inputs in order, the entries of its list. -/
theorem boxList_eq_map_sboxLookup (T : Vector (Fin 4) 16) :
    boxList T = (List.range 16).map fun n => (sboxLookup T (BitVec.ofNat 4 n)).toNat := by
  refine List.ext_getElem (by simp [boxList]) fun n hn hn' => ?_
  have hlt : n < 16 := by simpa using hn'
  rw [List.getElem_map, List.getElem_range, toNat_sboxLookup T _ 0, BitVec.toNat_ofNat, Nat.mod_eq_of_lt hlt,
    List.getD_eq_getElem _ _ hn]

/-- A box gives an output as often as its list has it. -/
theorem countP_sboxLookup (T : Vector (Fin 4) 16) (o : Nat) :
    ((List.range 16).countP fun n => (sboxLookup T (BitVec.ofNat 4 n)).toNat == o) = (boxList T).count o := by
  rw [boxList_eq_map_sboxLookup, List.count, List.countP_map]
  rfl

/-- Settles O46: the counts are those of the two lists (R132, R133). -/
theorem sboxOutputCounts : Obligations.SboxOutputCounts := by
  unfold Obligations.SboxOutputCounts
  simp only [sbox0, sbox1, countP_sboxLookup, boxList_s0Table, boxList_s1Table]
  decide

/-- R151 (c). -/
theorem leftHalf_roundF_xor (blk sk : Byte) :
    leftHalf (roundF blk sk) ^^^ leftHalf blk = roundZ (rightHalf blk) sk := by
  rw [leftHalf_roundF, BitVec.xor_assoc, BitVec.xor_self, BitVec.xor_zero]

/-- Settles O48: a round adds Z to the left half, and Z reads the half that the round keeps. -/
theorem roundFunctionLaws : Obligations.RoundFunctionLaws := by
  unfold Obligations.RoundFunctionLaws
  exact ⟨rightHalf_roundF, roundF_roundF, leftHalf_roundF_xor⟩

theorem getMsbD_swapHalves (v : Byte) {i : Nat} (hi : i < 8) : (swapHalves v).getMsbD i = v.getMsbD ((i + 4) % 8) := by
  rw [swapHalves, BitVec.getMsbD_append]
  split
  · next hright =>
    have hindex : (i + 4) % 8 = i - 4 := by omega
    rw [getMsbD_leftHalf v (by omega), hindex]
  · next hleft =>
    have hindex : (i + 4) % 8 = 4 + i := by omega
    rw [getMsbD_rightHalf, hindex]

/-- Settles O49: an element moves by four places, to the other half. -/
theorem swapExchangesHalves : Obligations.SwapExchangesHalves := by
  unfold Obligations.SwapExchangesHalves
  exact fun v => ⟨rfl, swapHalves_swapHalves v, fun i => getMsbD_swapHalves v i.isLt⟩

/-! ### The pipeline (R173) -/

theorem encryptByte_decryptByte (c : WfConfig) (key : Key) (x : Byte) :
    encryptByte c key (decryptByte c key x) = x :=
  pipe_pipe c x _ _

theorem encryptByte_bijective (c : WfConfig) (key : Key) : Function.Bijective (encryptByte c key) :=
  Function.bijective_iff_has_inverse.mpr
    ⟨decryptByte c key, decryptByte_encryptByte c key, encryptByte_decryptByte c key⟩

/-- R173 (d): with equal subkeys there is nothing to exchange. -/
theorem encryptByte_eq_decryptByte (c : WfConfig) {key : Key} (h : subkey1 c key = subkey2 c key) (x : Byte) :
    encryptByte c key x = decryptByte c key x := by
  rw [encryptByte, decryptByte, h]

theorem execIn_enc_loaded (c : WfConfig) (b : Byte) {s : State} (hkv : s.kv = true) :
    execIn c (.enc b) s = .next { s with dout := encryptByte c s.key b } :=
  finishKeyed_loaded _ hkv

theorem execIn_dec_loaded (c : WfConfig) (b : Byte) {s : State} (hkv : s.kv = true) :
    execIn c (.dec b) s = .next { s with dout := decryptByte c s.key b } :=
  finishKeyed_loaded _ hkv

/-- Settles O51: a pipe is undone by the pipe with the subkeys exchanged, which is the same one if they are equal. -/
theorem pipelineLaws : Obligations.PipelineLaws := by
  unfold Obligations.PipelineLaws
  refine fun c key => ⟨fun x => ⟨decryptByte_encryptByte c key x, encryptByte_decryptByte c key x⟩, ?determined,
    encryptByte_bijective c key, fun hsubkeys x => ⟨encryptByte_eq_decryptByte c hsubkeys x, ?involution⟩,
    fun x => ⟨?zero, ?allOnes⟩, fun _ _ _ => rfl⟩
  case determined =>
    rintro b s t hs ht rfl hkey
    exact ⟨execIn_enc_loaded c b hs, hkey ▸ execIn_enc_loaded c b ht⟩
  case involution => rw [encryptByte_eq_decryptByte c hsubkeys x, encryptByte_decryptByte]
  case zero => exact encryptByte_eq_decryptByte c ((subkey1_zero c).trans (subkey2_zero c).symm) x
  case allOnes => exact encryptByte_eq_decryptByte c ((subkey1_allOnes c).trans (subkey2_allOnes c).symm) x

/-! ### Round trips on the machine -/

/-- Settles O52: the first command changes DOUT alone, so the second runs under the same key and undoes it. -/
theorem encDecRoundTripOnMachine : Obligations.EncDecRoundTripOnMachine := by
  unfold Obligations.EncDecRoundTripOnMachine
  intro c b s hkv
  have hdec := execIn_dec_loaded c (encryptByte c s.key b) (s := { s with dout := encryptByte c s.key b }) hkv
  have henc := execIn_enc_loaded c (decryptByte c s.key b) (s := { s with dout := decryptByte c s.key b }) hkv
  rw [decryptByte_encryptByte] at hdec
  rw [encryptByte_decryptByte] at henc
  exact ⟨⟨_, execIn_enc_loaded c b hkv, hdec⟩, ⟨_, execIn_dec_loaded c b hkv, henc⟩⟩

theorem decMsg_eq_messageAccesses (m : List Byte) : decMsg m = messageAccesses .dec m := rfl

/-- Decrypting the ciphertext of a message byte by byte gives the message, here as it stands on the bus. -/
theorem map_decryptByte_map_encryptByte (c : WfConfig) (key : Key) (m : List Byte) :
    ((m.map (encryptByte c key)).map fun y => 0#8 ++ decryptByte c key y) = m.map fun b => 0#8 ++ b := by
  rw [List.map_map]
  exact List.map_congr_left fun b _ => congrArg (0#8 ++ ·) (decryptByte_encryptByte c key b)

/-- Settles O54: ENCMSG leaves DECMSG pending and the key loaded, and each is a message through its command. -/
theorem messageRoundTrip : Obligations.MessageRoundTrip := by
  unfold Obligations.MessageRoundTrip
  intro m rest s hkv cs
  have hlength : 4 * m.length = 2 * m.length + 2 * cs.length := by simp only [cs, List.length_map]; omega
  have hbus : (m.map fun b => 0#8 ++ encryptByte Config.engine s.key b) = cs.map fun b => 0#8 ++ b :=
    List.map_map.symm
  have henc := computesKeyed_enc.run_message (decMsg cs ++ rest) m hkv
  have hdec := computesKeyed_dec.run_message rest cs
    (s := { s with dout := cs.getLastD s.dout, replies := s.replies ++ cs.map fun b => 0#8 ++ b }) hkv
  rw [hbus] at henc
  rw [hlength, encMsg_eq_messageAccesses, run_add henc]
  exact ⟨_, hdec, congrArg (_ ++ ·) (map_decryptByte_map_encryptByte Config.engine s.key m), rfl⟩

end Sys2Proof.Machine
